-- ==== Sys2Proof/Word.lean ====
section
/-! DEFINITION. The three widths of the engine's values (spec/00_scope.md R6): a byte, a nibble and the program counter. -/

namespace Sys2Proof

/-- An 8-bit value: a memory cell, `ir`, `acc`, `b` or `out` (`DATA_WIDTH`, R6). -/
abbrev Byte := BitVec 8

/-- A 4-bit value: an opcode, an operand or a memory address (`ADDR_WIDTH`, R6). -/
abbrev Nibble := BitVec 4

/-- The program counter in its hardware form: bits 3..0 are the address field, bit 4 is the
overflow bit (10_state.md R21). -/
abbrev PcWord := BitVec 5

end Sys2Proof
end

