-- ==== Sys2Proof/Config.lean ====
section
/-! DEFINITION. What is fixed for the machine (00_scope.md R6), and the values the spec leaves unspecified:
the state before the first RESET or LOAD (70_reset_and_hazards.md R196). -/

namespace Sys2Proof

/-- `MEM_SIZE` (R6): the number of memory cells, and the first program counter value past them (R21). -/
def Config.memSize : Nat := 16

/-! The power-on values (R196, 92_eei_decisions.md D7): free values, one for each state element. They have
no body, so nothing can be proved of them. See notes/assumptions/7.md. -/

/-- `pc` at power-on. Free value. -/
opaque Config.powerOnPc : PcWord
/-- `mar` at power-on. Free value. -/
opaque Config.powerOnMar : Nibble
/-- `ir` at power-on. Free value. -/
opaque Config.powerOnIr : Byte
/-- `acc` at power-on. Free value. -/
opaque Config.powerOnAcc : Byte
/-- `b` at power-on. Free value. -/
opaque Config.powerOnB : Byte
/-- `out` at power-on. Free value. -/
opaque Config.powerOnOut : Byte
/-- `halted` at power-on. Free value. -/
opaque Config.powerOnHalted : Bool
/-- The 2-bit code of `cause` at power-on. Free value. -/
opaque Config.powerOnCause : BitVec 2
/-- The byte of each memory cell at power-on. Free values, one for each address. -/
opaque Config.powerOnCell : Nibble → Byte

end Sys2Proof
end

