-- ==== Sys2Proof/Syntax.lean ====
section
/-! DEFINITION. The instruction set: five instructions, a closed set (00_scope.md R2). -/

namespace Sys2Proof

/-- The names of the five instructions (00_scope.md R11), as step reports give them (40_instruction_cycle.md R110). -/
inductive Mnemonic where
  | LDA | ADD | SUB | OUT | HLT
deriving DecidableEq, Repr

/-- One constructor for each row of spec/opcode_table.json, "each carrying its decoded operand" (R2).
OUT and HLT carry the operand nibble they ignore (30_encoding.md R73, notes/assumptions/9.md). -/
inductive Instr where
  /-- LDA a: load the accumulator (41_load_arithmetic.md R120). -/
  | lda (a : Nibble)
  /-- ADD a: add a cell to the accumulator (R121). -/
  | add (a : Nibble)
  /-- SUB a: subtract a cell from the accumulator (R122). -/
  | sub (a : Nibble)
  /-- OUT: copy the accumulator to the output register (42_output_halt.md R140). -/
  | out (x : Nibble)
  /-- HLT: stop the engine (R141). -/
  | hlt (x : Nibble)
deriving DecidableEq, Repr

/-- The instruction's name (R11). -/
def Instr.mnemonic : Instr → Mnemonic
  | .lda _ => .LDA
  | .add _ => .ADD
  | .sub _ => .SUB
  | .out _ => .OUT
  | .hlt _ => .HLT

/-- The decoded operand nibble, which a step report carries for all five (40_instruction_cycle.md R110). -/
def Instr.operand : Instr → Nibble
  | .lda a => a
  | .add a => a
  | .sub a => a
  | .out x => x
  | .hlt x => x

end Sys2Proof
end

