-- ==== Sys2Proof/WellFormed.lean ====
section
/-! DEFINITION. The checks on instructions and on memory images. Every operand value is legal for every
instruction (20_memory.md R52, 30_encoding.md R73, R76), so the type `Instr` leaves no ill-formed
instruction: the checks are of what the assembler writes, and of what LOAD accepts. -/

namespace Sys2Proof

/-- The form the assembler writes: "encodes opcode with operand nibble = 0" for OUT and HLT
(30_encoding.md R73). An instruction outside this form still executes (R73). -/
def Instr.assembled : Instr → Bool
  | .lda _ => true
  | .add _ => true
  | .sub _ => true
  | .out x => x == 0
  | .hlt x => x == 0

/-- A memory image: "exactly 16 values, each in 0..255" (70_reset_and_hazards.md R193, 20_memory.md R51). -/
def imageOk (image : List Nat) : Bool :=
  image.length == Config.memSize && image.all (fun v => decide (v < 256))

end Sys2Proof
end

