-- ==== Sys2Proof/Decode.lean ====
section
/-! DEFINITION. The one instruction format (30_encoding.md R70, R71), the opcode map (R74), decode and encode. -/

namespace Sys2Proof

/-- `opcode = ir[7:4]`, the high nibble (30_encoding.md R71, 40_instruction_cycle.md R104). -/
def opcodeField (ir : Byte) : Nibble := ir.extractLsb' 4 4

/-- `operand = ir[3:0]`, the low nibble (R71, R104). -/
def operandField (ir : Byte) : Nibble := ir.extractLsb' 0 4

/-- The byte with the given opcode and operand nibbles (R71). -/
def instrByte (opcode operand : Nibble) : Byte := opcode ++ operand

/-- The opcode map: LDA=0000, ADD=0001, SUB=0010, OUT=1110, HLT=1111 (R74, 92_eei_decisions.md D23).
The one place where the literals stand. -/
def opcodeOf : Mnemonic → Nibble
  | .LDA => 0b0000
  | .ADD => 0b0001
  | .SUB => 0b0010
  | .OUT => 0b1110
  | .HLT => 0b1111

/-- The instruction an opcode selects in R74's map, none for the eleven reserved values (R75). -/
def mnemonicOf (opcode : Nibble) : Option Mnemonic :=
  [Mnemonic.LDA, .ADD, .SUB, .OUT, .HLT].find? (fun m => opcodeOf m == opcode)

/-- Why a byte is no instruction. -/
inductive DecodeRefusal where
  /-- An opcode value 0x3 to 0xD (R75): the STEP that fetches it takes the decode error of
  60_exceptions.md R160. Safe: it is the spec's own outcome. -/
  | reservedOpcode (opcode : Nibble)
deriving DecidableEq, Repr

/-- The instruction of the given name and operand nibble. -/
def Mnemonic.instr : Mnemonic → Nibble → Instr
  | .LDA, x => .lda x
  | .ADD, x => .add x
  | .SUB, x => .sub x
  | .OUT, x => .out x
  | .HLT, x => .hlt x

/-- Decode is total: every byte gives one instruction or the decode error, by `ir[7:4]` alone (R76). -/
def decode (ir : Byte) : Except DecodeRefusal Instr :=
  match mnemonicOf (opcodeField ir) with
  | some m => .ok (m.instr (operandField ir))
  | none => .error (.reservedOpcode (opcodeField ir))

/-- The byte of an instruction (R71, R74). -/
def encode (i : Instr) : Byte := instrByte (opcodeOf i.mnemonic) i.operand

/-- The byte of an instruction whose first `nbits` bits are `w`, every bit above them 0. -/
def tableByte (nbits w : Nat) : Byte := BitVec.ofNat 8 (w % 2 ^ nbits)

/-- The instruction the decoder reads from the bits `w` of a row of spec/opcode_table.json. An
instruction is one byte (R70), so bits above the eighth make it none. -/
def decodeTableWord (nbits w : Nat) : Option Instr :=
  if w % 2 ^ nbits < 256 then (decode (tableByte nbits w)).toOption else none

end Sys2Proof
end

