-- ==== Sys2Proof/Machine/State.lean ====
section
/-! DEFINITION. The state of the engine, "exactly the elements below, and nothing else" (10_state.md R20), its
value after RESET (R36), and the reasons an operation can stop. -/

namespace Sys2Proof.Machine

/-- Why the engine last halted (10_state.md R30). Its 2-bit encoding is `HaltCause.code`. -/
inductive HaltCause where
  /-- NONE: not halted. -/
  | none
  /-- HLT: an HLT instruction executed. -/
  | hlt
  /-- PC_OVERFLOW: `pc` ran past address 15. -/
  | pcOverflow
  /-- DECODE_ERROR: a reserved opcode was fetched. -/
  | decodeError
deriving DecidableEq, Repr

/-- The 16 cells of memory (10_state.md R32), as the cells that differ from what an unlisted address reads
as, addresses strictly rising. `Memory.wf` says the form (notes/assumptions/1.md). -/
abbrev Memory := List Host.Cell

/-- The nine state elements of 10_state.md R20. -/
structure State where
  /-- Program counter, 0..16: address field and overflow bit (R21). -/
  pc : PcWord
  /-- Memory address register (R23). -/
  mar : Nibble
  /-- Instruction register (R24). -/
  ir : Byte
  /-- Accumulator (R25). -/
  acc : Byte
  /-- Auxiliary register (R26). -/
  b : Byte
  /-- Output register (R27). -/
  out : Byte
  /-- Halted bit (R29). -/
  halted : Bool
  /-- Halt cause (R30). -/
  cause : HaltCause
  /-- Memory (R32). -/
  mem : Memory
deriving DecidableEq, Repr

/-- The reasons an operation could fault. There are none: no access can fault (20_memory.md R58), and a
decode error, a halt and a STEP that is not runnable each have a next state in the spec
(60_exceptions.md R160 to R162; notes/assumptions/8.md). -/
inductive Fault where
deriving DecidableEq, Repr

/-- The reasons an operation is refused. No instruction and no STEP of a defined engine is. -/
inductive Refusal where
  /-- An instruction without a meaning, by its mnemonic. Raised by nothing: every instruction has one. Safe. -/
  | notModelled (mnemonic : String)
  /-- LOAD of something that is no 16-byte image (70_reset_and_hazards.md R193). Raised by the host
  operation LOAD, which gives no new state. Safe. -/
  | loadNotImage
  /-- STEP before the first RESET or LOAD (R196). Raised by the host operation STEP. Safe. -/
  | stepBeforeReset
deriving DecidableEq, Repr

/-- The state after RESET (10_state.md R36, 70_reset_and_hazards.md R191): every register 0, `halted` 0,
`cause` NONE, every memory cell 0. -/
def State.reset : State where
  pc := 0
  mar := 0
  ir := 0
  acc := 0
  b := 0
  out := 0
  halted := false
  cause := .none
  mem := []

end Sys2Proof.Machine
end

