-- ==== Sys2Proof/Machine/Ops.lean ====
section
/-! DEFINITION. The operations over memory, registers and the halt state that the meanings, the cycle and the
host operations share. -/

namespace Sys2Proof.Machine

/-! ## Memory (20_memory.md) -/

/-- What an address not listed in memory reads as: RESET writes all 16 cells with 0 (20_memory.md R53). -/
def unlistedByte : Byte := 0

/-- The byte at an address of the list. -/
def Memory.readAt : Memory → Nat → Byte
  | [], _ => unlistedByte
  | (k, v) :: rest, a => if k = a then v else Memory.readAt rest a

/-- The list after one cell is written, in canonical form again. -/
def Memory.writeAt : Memory → Nat → Byte → Memory
  | [], a, v => if v = unlistedByte then [] else [(a, v)]
  | (k, w) :: rest, a, v =>
    if a < k then
      if v = unlistedByte then (k, w) :: rest else (a, v) :: (k, w) :: rest
    else if a = k then
      if v = unlistedByte then rest else (a, v) :: rest
    else (k, w) :: Memory.writeAt rest a v

/-- The canonical form: addresses strictly rising, none past the last of the 16 cells (R51), no cell
listed that holds what an unlisted address reads as. -/
abbrev Memory.wf (m : Memory) : Prop :=
  m.Pairwise (fun c d => c.1 < d.1) ∧ ∀ c ∈ m, c.1 < Config.memSize ∧ c.2 ≠ unlistedByte

/-- `MemRead(a, 1)` (00_scope.md R10): the whole 8-bit value of cell `a`, with no side effect
(20_memory.md R54, R56). Every 4-bit address names a cell (R52). -/
def memRead (m : Memory) (a : Nibble) : Byte := m.readAt a.toNat

/-- `MemWrite(a, 1, v)` (00_scope.md R10). No instruction uses it (20_memory.md R53). -/
def memWrite (m : Memory) (a : Nibble) (v : Byte) : Memory := m.writeAt a.toNat v

/-- The memory that holds the given bytes from address `a` up, the cell at `a` before the cell at
`a + 1` (20_memory.md R55). -/
def Memory.ofBytes : Nat → List Byte → Memory
  | _, [] => []
  | a, v :: vs => (Memory.ofBytes (a + 1) vs).writeAt a v

/-- The 4-bit addresses of the 16 cells, in index order (R50). -/
def addresses : List Nibble := (List.range Config.memSize).map (BitVec.ofNat 4)

/-- The 16 cells in index order, as SNAPSHOT reads them (10_state.md R35). -/
def Memory.cells (m : Memory) : List Byte := addresses.map (memRead m)

/-! ## Registers (10_state.md R21 to R28): each has one home and is written whole -/

/-- `pc <- v`. -/
def State.setPc (s : State) (v : PcWord) : State := { s with pc := v }
/-- `mar <- v`. -/
def State.setMar (s : State) (v : Nibble) : State := { s with mar := v }
/-- `ir <- v`. -/
def State.setIr (s : State) (v : Byte) : State := { s with ir := v }
/-- `acc <- v`. -/
def State.setAcc (s : State) (v : Byte) : State := { s with acc := v }
/-- `b <- v`. -/
def State.setB (s : State) (v : Byte) : State := { s with b := v }
/-- `out <- v`. -/
def State.setOut (s : State) (v : Byte) : State := { s with out := v }

/-- The address field `pc[3:0]` (R21). -/
def pcAddress (s : State) : Nibble := s.pc.extractLsb' 0 4

/-! ## Halt state (10_state.md R29, R30; 60_exceptions.md R160 to R162) -/

/-- The encoding of `cause`: 0 = NONE, 1 = HLT, 2 = PC_OVERFLOW, 3 = DECODE_ERROR (R30, R162). -/
def HaltCause.code : HaltCause → BitVec 2
  | .none => 0
  | .hlt => 1
  | .pcOverflow => 2
  | .decodeError => 3

/-- The cause that a 2-bit code names (R30). -/
def HaltCause.ofCode (c : BitVec 2) : HaltCause :=
  if c = 0 then .none else if c = 1 then .hlt else if c = 2 then .pcOverflow else .decodeError

/-- `halt(c)` stands for `halted <- 1; cause <- c` (00_scope.md R10). The engine has no other way to take
an exception: no vector, no saved pc, no mode change (60_exceptions.md R164), and no return (R165). -/
def State.halt (s : State) (c : HaltCause) : State := { s with halted := true, cause := c }

/-- The decode error: the fetch stays committed and the engine halts (R160). -/
def takeDecodeError (s : State) : State := s.halt .decodeError

/-! ## The parts of the cycle around an execute phase (40_instruction_cycle.md) -/

/-- The runnable check: `pc < 16 and halted == 0` (R100). -/
def runnable (s : State) : Bool := decide (s.pc.toNat < Config.memSize) && !s.halted

/-- The byte at the program counter. -/
def fetchedByte (s : State) : Byte := memRead s.mem (pcAddress s)

/-- T1, `mar <- pc[3:0]` (R101). -/
def fetchAddress (s : State) : State := s.setMar (pcAddress s)

/-- T2, `pc <- pc + 1`, which does not wrap from 15 to 0 (R102). -/
def fetchIncrement (s : State) : State := s.setPc (s.pc + 1)

/-- T3, `ir <- MemRead(mar, 1)` (R103). -/
def fetchLoad (s : State) : State := s.setIr (memRead s.mem s.mar)

/-- The fetch phase, T1 then T2 then T3. -/
def fetch (s : State) : State := fetchLoad (fetchIncrement (fetchAddress s))

/-- The condition of the PC overflow halt: `halted == 0 and pc == 16` (R107). -/
def pcOverflows (s : State) : Bool := !s.halted && decide (s.pc.toNat = Config.memSize)

/-- The end-of-step check (R107). -/
def endOfStep (s : State) : State := if pcOverflows s then s.halt .pcOverflow else s

/-! ## Outcomes -/

/-- A function of the next state, carried through an outcome; a fault or a refusal stays as it is. -/
def onNext {σ τ : Type} (f : σ → τ) :
    Host.Outcome σ Fault Refusal → Host.Outcome τ Fault Refusal
  | .next s => .next (f s)
  | .fault r => .fault r
  | .refused r => .refused r

/-! ## Reset states (10_state.md R36) -/

/-- The state after LOAD(image): every register as after RESET, memory the image
(70_reset_and_hazards.md R192). -/
def State.loaded (image : List Nat) : State :=
  { State.reset with mem := Memory.ofBytes 0 (image.map (BitVec.ofNat 8)) }

/-- The state before the first RESET or LOAD: every element unspecified (R196). -/
def State.powerOn : State where
  pc := Config.powerOnPc
  mar := Config.powerOnMar
  ir := Config.powerOnIr
  acc := Config.powerOnAcc
  b := Config.powerOnB
  out := Config.powerOnOut
  halted := Config.powerOnHalted
  cause := HaltCause.ofCode Config.powerOnCause
  mem := Memory.ofBytes 0 (addresses.map Config.powerOnCell)

/-- The state with a byte placed where the next STEP fetches. A state that is not runnable is first made
runnable at the entry point, as LOAD does (R192, R197). No host move does this (20_memory.md R64): it
stands for the LOAD of a program (notes/assumptions/19.md). -/
def placeAtFetch (s : State) (v : Byte) : State :=
  let r := if runnable s then s else { s with pc := 0, halted := false, cause := .none }
  { r with mem := memWrite r.mem (pcAddress r) v }

end Sys2Proof.Machine
end

