-- ==== Sys2Proof/Machine/Report.lean ====
section
/-! DEFINITION. What the host reads: SNAPSHOT (10_state.md R35), the indicator lights (60_exceptions.md R168) and
the report of a step (40_instruction_cycle.md R109, R110). -/

namespace Sys2Proof.Machine

/-- What SNAPSHOT returns: every state element, memory as its 16 cells in index order (10_state.md R35,
92_eei_decisions.md D22). -/
structure Snapshot where
  /-- The program counter. -/
  pc : PcWord
  /-- The memory address register. -/
  mar : Nibble
  /-- The instruction register. -/
  ir : Byte
  /-- The accumulator. -/
  acc : Byte
  /-- The auxiliary register. -/
  b : Byte
  /-- The output register. -/
  out : Byte
  /-- The halted bit. -/
  halted : Bool
  /-- The halt cause, by its 2-bit code. -/
  cause : BitVec 2
  /-- The 16 cells of memory. -/
  cells : List Byte
deriving DecidableEq, Repr

/-- SNAPSHOT's reading of a state (R35). -/
def State.snapshot (s : State) : Snapshot where
  pc := s.pc
  mar := s.mar
  ir := s.ir
  acc := s.acc
  b := s.b
  out := s.out
  halted := s.halted
  cause := s.cause.code
  cells := s.mem.cells

/-- Light `i` shows bit `out[i]` (60_exceptions.md R168, 92_eei_decisions.md D12). -/
def State.light (s : State) (i : Fin 8) : Bool := s.out.getLsbD i.val

/-- `StepResult{opcode_name, operand, halted, registers_snapshot}` (40_instruction_cycle.md R110). -/
structure StepResult where
  /-- The mnemonic of the instruction executed. -/
  name : Mnemonic
  /-- Its operand nibble. -/
  operand : Nibble
  /-- The halted bit after the step. -/
  halted : Bool
  /-- The snapshot after the step. -/
  after : Snapshot
deriving DecidableEq, Repr

/-- The report of a step: exactly one of the five outcomes of R109, with R110's fields. -/
inductive StepReport where
  /-- EXECUTED: LDA, ADD, SUB or OUT ran, and the engine runs on. -/
  | executed (r : StepResult)
  /-- HALT_HLT: HLT ran. -/
  | haltHlt (r : StepResult)
  /-- HALT_PC_OVERFLOW: LDA, ADD, SUB or OUT ran at address 15. -/
  | haltPcOverflow (r : StepResult)
  /-- DECODE_ERROR: the failing opcode, the address it was fetched from, `halted` and the snapshot
  after the step (R110, 60_exceptions.md R160, 92_eei_decisions.md D18). -/
  | decodeError (opcode address : Nibble) (halted : Bool) (after : Snapshot)
  /-- NOT_RUNNABLE: carries nothing else. -/
  | notRunnable
deriving DecidableEq, Repr

/-- The result of an executed instruction, read from the state after the step. -/
def stepResult (i : Instr) (t : State) : StepResult where
  name := i.mnemonic
  operand := i.operand
  halted := t.halted
  after := t.snapshot

/-- The report of a decode error: `t` is the state after the step, where `mar` still holds the fetch
address and `ir` the failing byte (60_exceptions.md R160). -/
def decodeErrorReport (t : State) : StepReport :=
  .decodeError (opcodeField t.ir) t.mar t.halted t.snapshot

end Sys2Proof.Machine
end

