-- ==== Sys2Proof/Machine/Cycle.lean ====
section
/-! DEFINITION. The whole of STEP as one sequence (40_instruction_cycle.md R108), over a given execute phase. -/

namespace Sys2Proof.Machine

/-- What follows the execute phase of `i`, which left `e`: the end-of-step check and the report (R107 to
R109). The PC overflow halt comes first, and HLT never meets its condition, being halted already. -/
def finishStep (i : Instr) (e : State) : State × StepReport :=
  let t := endOfStep e
  (t, if pcOverflows e then .haltPcOverflow (stepResult i t)
      else if i.mnemonic = .HLT then .haltHlt (stepResult i t)
      else .executed (stepResult i t))

/-- What follows the fetch of a byte that is no instruction (R105, 60_exceptions.md R160). -/
def finishDecodeError (f : State) : State × StepReport :=
  let t := takeDecodeError f
  (t, decodeErrorReport t)

/-- STEP (R108): the runnable check, fetch, decode, the execute phase, the end of the step. The state
after it, and what it reports. -/
def cycle (execute : Instr → State → Host.Outcome State Fault Refusal) (s : State) :
    Host.Outcome (State × StepReport) Fault Refusal :=
  if runnable s then
    match decode (fetch s).ir with
    | .ok i => onNext (finishStep i) (execute i (fetch s))
    | .error _ => .next (finishDecodeError (fetch s))
  else .next (s, .notRunnable)

end Sys2Proof.Machine
end

