-- ==== Sys2Proof/Machine/Flags.lean ====
section
/-! DEFINITION. The arithmetic unit. It has no flags: no carry, zero, sign, borrow or overflow flag exists, and a
model must not add one (10_state.md R31), so each operation gives its 8-bit result alone. -/

namespace Sys2Proof.Machine

/-- 8-bit addition, `(acc + b) mod 256`: exact sum, then reduced (41_load_arithmetic.md R121, R123;
00_scope.md R8). The carry is discarded. -/
def aluAdd (x y : Byte) : Byte := BitVec.ofInt 8 ((x.toNat : Int) + (y.toNat : Int))

/-- 8-bit subtraction, `(acc - b) mod 256`: exact difference, then reduced (R122, R123; 00_scope.md R8).
The borrow is discarded. -/
def aluSub (x y : Byte) : Byte := BitVec.ofInt 8 ((x.toNat : Int) - (y.toNat : Int))

end Sys2Proof.Machine
end

