-- ==== Sys2Proof/Machine/Operands.lean ====
section
/-! DEFINITION. The one operand form: direct (absolute) addressing by the operand nibble (30_encoding.md R72). -/

namespace Sys2Proof.Machine

/-- The address a direct operand names: the nibble as is, "with no sign extension, scaling, offset or
base register" (R72). -/
def directAddress (a : Nibble) : Nibble := a

/-- `mar <- a` before the operand read (10_state.md R23). -/
def addressOperand (a : Nibble) (s : State) : State := s.setMar (directAddress a)

/-- The operand's value, `MemRead(mar, 1)` (20_memory.md R53). -/
def operandValue (s : State) : Byte := memRead s.mem s.mar

end Sys2Proof.Machine
end

