-- ==== Sys2Proof/Machine/LoadArithmetic.lean ====
section
/-! DEFINITION. The execute phases of LDA, ADD and SUB (41_load_arithmetic.md). -/

namespace Sys2Proof.Machine

/-- LDA a: `mar <- a; acc <- MemRead(mar, 1)` (R120). -/
def execLda (a : Nibble) (s : State) : Host.Outcome State Fault Refusal :=
  let s := addressOperand a s
  .next (s.setAcc (operandValue s))

/-- The execute phase ADD and SUB share: `mar <- a; b <- MemRead(mar, 1); acc <- op acc b`. -/
def execAlu (op : Byte → Byte → Byte) (a : Nibble) (s : State) : State :=
  let s := addressOperand a s
  let s := s.setB (operandValue s)
  s.setAcc (op s.acc s.b)

/-- ADD a: `acc <- (acc + b) mod 256` with `b` the operand (R121). -/
def execAdd (a : Nibble) (s : State) : Host.Outcome State Fault Refusal :=
  .next (execAlu aluAdd a s)

/-- SUB a: `acc <- (acc - b) mod 256` with `b` the operand (R122). -/
def execSub (a : Nibble) (s : State) : Host.Outcome State Fault Refusal :=
  .next (execAlu aluSub a s)

end Sys2Proof.Machine
end

