-- ==== Sys2Proof/Machine/OutputHalt.lean ====
section
/-! DEFINITION. The execute phases of OUT and HLT (42_output_halt.md). -/

namespace Sys2Proof.Machine

/-- OUT: `out <- acc`. The operand nibble is ignored (R140). -/
def execOut (_x : Nibble) (s : State) : Host.Outcome State Fault Refusal :=
  .next (s.setOut s.acc)

/-- HLT: `halted <- 1; cause <- HLT`. The operand nibble is ignored (R141). -/
def execHlt (_x : Nibble) (s : State) : Host.Outcome State Fault Refusal :=
  .next (s.halt .hlt)

end Sys2Proof.Machine
end

