-- ==== Sys2Proof/Machine/Dispatch.lean ====
section
/-! DEFINITION. Dispatch to the instruction's execute phase (40_instruction_cycle.md R105, R106). -/

namespace Sys2Proof.Machine

def exec (i : Instr) (s : State) : Host.Outcome State Fault Refusal :=
  match i with
  | .lda a => Sys2Proof.Machine.execLda a s
  | .add a => Sys2Proof.Machine.execAdd a s
  | .sub a => Sys2Proof.Machine.execSub a s
  | .out x => Sys2Proof.Machine.execOut x s
  | .hlt x => Sys2Proof.Machine.execHlt x s

end Sys2Proof.Machine
end

