-- ==== Sys2Proof/Machine/Step.lean ====
section
/-! DEFINITION. One STEP of the engine, and the placing of an instruction where the next STEP fetches it. -/

namespace Sys2Proof.Machine

/-- The state after one STEP (40_instruction_cycle.md R108). -/
def step (s : State) : Host.Outcome State Fault Refusal := onNext Prod.fst (cycle exec s)

/-- What that STEP reports (R109, R110). -/
def stepReport (s : State) : Host.Outcome StepReport Fault Refusal := onNext Prod.snd (cycle exec s)

/-- The state with the instruction of bits `w` where `step` fetches next. -/
def State.withFetchWord (s : State) (nbits w : Nat) : State := placeAtFetch s (tableByte nbits w)

end Sys2Proof.Machine
end

