-- ==== Sys2Proof/Machine/Assembly.lean ====
section
/-! DEFINITION. What an assembly text means as an image (30_encoding.md R78 to R82), statement by statement. The
assembler is software outside the hardware (00_scope.md R4); its lexical questions are not modelled
(notes/assumptions/15.md). -/

namespace Sys2Proof.Machine

/-- A statement: an instruction with the operand its line gives, if any, or a directive (R79). -/
inductive AsmStatement where
  /-- An instruction statement: LDA, ADD and SUB take an address, OUT and HLT take nothing. -/
  | instr (name : Mnemonic) (operand : Option Nat)
  /-- `ORG <addr>`. -/
  | org (addr : Nat)
  /-- `DB <value>`. -/
  | db (value : Nat)
  /-- Any other mnemonic. -/
  | other (name : String)
deriving DecidableEq, Repr

/-- Why assembly fails (R81). -/
inductive AsmError where
  /-- An operand of ORG, LDA, ADD or SUB outside 0..15. -/
  | operandRange
  /-- A DB value outside 0..255. -/
  | valueRange
  /-- DB with no preceding ORG. -/
  | dbBeforeOrg
  /-- An unknown mnemonic. -/
  | unknownMnemonic
  /-- A write past address 15 by either pointer. -/
  | memoryExhausted
  /-- A missing operand on LDA, ADD or SUB. -/
  | missingOperand
  /-- An operand on OUT or HLT. -/
  | extraOperand
deriving DecidableEq, Repr

/-- Why a statement does not extend the image. -/
inductive AsmStop where
  /-- An assembly error (R81). -/
  | failed (why : AsmError)
  /-- Two writes to one cell: which survives is not stated (91_not_in_source.md), and such texts are
  refused (93_implementation_defined.md U8). -/
  | overlap
deriving DecidableEq, Repr

/-- The two cursors and the cells written so far (R80). -/
structure AsmState where
  /-- Instruction pointer: "starts at 0, advanced only by instruction statements". -/
  ip : Nat
  /-- Data pointer: "starts undefined, set only by ORG, advanced only by DB". -/
  dp : Option Nat
  /-- The cells written, latest first. -/
  written : List (Nat × Nat)
deriving DecidableEq, Repr

/-- What a text means. -/
inductive AsmResult where
  /-- Success: the image. -/
  | image (cells : List Nat)
  /-- Failure: the 1-based line number and why; no image (R81). -/
  | stopped (line : Nat) (why : AsmStop)
deriving DecidableEq, Repr

/-- One cell of the backing array written, out-of-range writes detected (R80, R81). -/
def AsmState.put (c : AsmState) (a v : Nat) : Except AsmStop AsmState :=
  if Config.memSize ≤ a then .error (.failed .memoryExhausted)
  else if (c.written.lookup a).isSome then .error .overlap
  else .ok { c with written := (a, v) :: c.written }

/-- The operand nibble of an instruction statement: an address, or the 0 the assembler writes for OUT and
HLT (R73, R79). -/
def asmOperand : Mnemonic → Option Nat → Except AsmStop Nibble
  | .OUT, none => .ok 0
  | .HLT, none => .ok 0
  | .OUT, some _ => .error (.failed .extraOperand)
  | .HLT, some _ => .error (.failed .extraOperand)
  | _, none => .error (.failed .missingOperand)
  | _, some n => if n < 16 then .ok (BitVec.ofNat 4 n) else .error (.failed .operandRange)

/-- The image effect of one statement (R79). -/
def asmStatement (c : AsmState) : AsmStatement → Except AsmStop AsmState
  | .instr name operand =>
    match asmOperand name operand with
    | .error e => .error e
    | .ok x =>
      match c.put c.ip (encode (name.instr x)).toNat with
      | .error e => .error e
      | .ok c' => .ok { c' with ip := c.ip + 1 }
  | .org addr => if addr < 16 then .ok { c with dp := some addr } else .error (.failed .operandRange)
  | .db value =>
    match c.dp with
    | none => .error (.failed .dbBeforeOrg)
    | some d =>
      if value < 256 then
        match c.put d value with
        | .error e => .error e
        | .ok c' => .ok { c' with dp := some (d + 1) }
      else .error (.failed .valueRange)
  | .other _ => .error (.failed .unknownMnemonic)

/-- The image of the cells written: a cell that no statement writes holds 0 (R80). -/
def AsmState.toImage (c : AsmState) : List Nat :=
  (List.range Config.memSize).map (fun a => (c.written.lookup a).getD 0)

/-- The lines from line `n` on. A line without a statement, blank or comment only, is skipped (R78). -/
def asmLines : Nat → AsmState → List (Option AsmStatement) → AsmResult
  | _, c, [] => .image c.toImage
  | n, c, none :: rest => asmLines (n + 1) c rest
  | n, c, some st :: rest =>
    match asmStatement c st with
    | .ok c' => asmLines (n + 1) c' rest
    | .error e => .stopped n e

/-- Assembly "either fully succeeds or fully fails" (R81). -/
def assemble (lines : List (Option AsmStatement)) : AsmResult :=
  asmLines 1 ⟨0, none, []⟩ lines

/-- The disassembly of a byte by the opcode table, as the statement that is written for it: OUT and HLT
without an operand, whatever the nibble (R77). -/
def disassemble (v : Byte) : Option AsmStatement :=
  match decode v with
  | .ok (.lda a) => some (.instr .LDA (some a.toNat))
  | .ok (.add a) => some (.instr .ADD (some a.toNat))
  | .ok (.sub a) => some (.instr .SUB (some a.toNat))
  | .ok (.out _) => some (.instr .OUT none)
  | .ok (.hlt _) => some (.instr .HLT none)
  | .error _ => none

end Sys2Proof.Machine
end

