-- ==== Sys2Proof/Machine/HostOps.lean ====
section
/-! DEFINITION. The host's four operations (70_reset_and_hazards.md R190), sessions of them, and the continuous
run (40_instruction_cycle.md R114). -/

namespace Sys2Proof.Machine

/-- What the host can do to the engine: "exactly four things, one at a time" (R190). There is no move
that writes one cell or one register (20_memory.md R64) and none that overlaps a step (R201). -/
inductive HostOp where
  /-- RESET, `engine.reset()` (R191). -/
  | reset
  /-- LOAD(image), `engine.load(memory_image[16])` (R192). -/
  | load (image : List Nat)
  /-- STEP, `engine.step()` (40_instruction_cycle.md R108). -/
  | step
  /-- SNAPSHOT, the read-only accessor (10_state.md R35). -/
  | snapshot
deriving DecidableEq, Repr

/-- The engine as the host holds it. -/
structure Engine where
  /-- Whether a RESET or LOAD has happened: before it, `state` is unspecified and STEP has no meaning (R196). -/
  defined : Bool
  /-- The state elements. -/
  state : State
deriving DecidableEq, Repr

/-- The engine before the first RESET or LOAD (R196). -/
def Engine.powerOn : Engine := ⟨false, State.powerOn⟩

/-- The engine in a defined state. -/
def Engine.ready (s : State) : Engine := ⟨true, s⟩

/-- What an operation gives back to the host. -/
inductive Response where
  /-- RESET and LOAD give nothing back. -/
  | done
  /-- STEP's report. -/
  | stepped (r : StepReport)
  /-- SNAPSHOT's values. -/
  | observed (v : Snapshot)
deriving DecidableEq, Repr

/-- LOAD(image): any state becomes the loaded one; what is no image has no meaning (R192, R193). -/
def hostLoad (image : List Nat) : Host.Outcome (Engine × Response) Fault Refusal :=
  if imageOk image then .next (Engine.ready (State.loaded image), .done) else .refused .loadNotImage

/-- STEP: one cycle of a defined engine (R196, 40_instruction_cycle.md R108). -/
def hostStep (e : Engine) : Host.Outcome (Engine × Response) Fault Refusal :=
  if e.defined then onNext (fun p => (Engine.ready p.1, Response.stepped p.2)) (cycle exec e.state)
  else .refused .stepBeforeReset

/-- One host operation, an indivisible transaction (R190). RESET and LOAD are accepted in every state
(R194); SNAPSHOT changes nothing (10_state.md R35). -/
def serve (op : HostOp) (e : Engine) : Host.Outcome (Engine × Response) Fault Refusal :=
  match op with
  | .reset => .next (Engine.ready State.reset, .done)
  | .load image => hostLoad image
  | .step => hostStep e
  | .snapshot => .next (e, .observed e.state.snapshot)

/-- A session: operations in the host's one total order (20_memory.md R59), with their responses. An
operation without a meaning ends it. -/
def session : List HostOp → Engine → Host.Outcome (Engine × List Response) Fault Refusal
  | [], e => .next (e, [])
  | op :: ops, e =>
    match serve op e with
    | .next (e', r) => onNext (fun p => (p.1, r :: p.2)) (session ops e')
    | .fault r => .fault r
    | .refused r => .refused r

/-- The reports after which a continuous run ends: every outcome with `halted == 1`, and NOT_RUNNABLE
(40_instruction_cycle.md R114). -/
def StepReport.endsRun : StepReport → Bool
  | .executed _ => false
  | .haltHlt _ => true
  | .haltPcOverflow _ => true
  | .decodeError _ _ _ _ => true
  | .notRunnable => true

/-- Continuous run (R114): STEP until a report ends the run, or until `limit` steps, where a stop request
falls between two steps. The last state and the reports in order. -/
def continuousRun : Nat → State → Host.Outcome (State × List StepReport) Fault Refusal
  | 0, s => .next (s, [])
  | limit + 1, s =>
    match cycle exec s with
    | .next (t, r) =>
      if r.endsRun then .next (t, [r])
      else onNext (fun p => (p.1, r :: p.2)) (continuousRun limit t)
    | .fault r => .fault r
    | .refused r => .refused r

end Sys2Proof.Machine
end

