-- ==== Sys2Proof/Safety.lean ====
section
/-! DEFINITION. The terms the statements use: the invariant of the engine, runs, the step as R108 writes it out,
the exact arithmetic of a program, and when two states agree. -/

namespace Sys2Proof.Machine

/-- The invariant of a defined engine: `pc <= 16`, and `pc == 16` implies halted (10_state.md R22);
`cause == NONE` exactly when not halted (R30); the PC overflow cause only past address 15 (60_exceptions.md
R162). The last clause, the canonical form of the list that holds memory, is the model's DESIGN CHOICE
(notes/assumptions/1.md) and no rule of the spec. -/
abbrev State.Inv (s : State) : Prop :=
  s.pc.toNat ≤ 16 ∧ (s.pc.toNat = 16 → s.halted = true) ∧ (s.cause = .none ↔ s.halted = false) ∧
    (s.cause = .pcOverflow → s.pc.toNat = 16) ∧ s.mem.wf

/-- `k` STEPs of the machine, as `Host.Core.run` takes them. -/
def runSteps : Nat → State → Host.Outcome State Fault Refusal
  | 0, s => .next s
  | k + 1, s =>
    match step s with
    | .next t => runSteps k t
    | .fault r => .fault r
    | .refused r => .refused r

/-- The session's state alone. -/
def sessionState (ops : List HostOp) (e : Engine) : Host.Outcome Engine Fault Refusal :=
  onNext Prod.fst (session ops e)

/-- The memory that the host's last RESET or LOAD of a list of operations leaves, `m` if there is none. -/
def lastImage : List HostOp → Memory → Memory
  | [], m => m
  | .reset :: ops, _ => lastImage ops []
  | .load image :: ops, _ => lastImage ops (State.loaded image).mem
  | .step :: ops, m => lastImage ops m
  | .snapshot :: ops, m => lastImage ops m

/-- What every completed LDA, ADD, SUB or OUT step from `s` to `t` does around its own effect: `pc` moves on
by one, `ir` holds the byte, memory is as before, and the step reports EXECUTED, or at address 15 halts with
PC_OVERFLOW and reports that (40_instruction_cycle.md R102, R103, R107, R109, R110). -/
def plainStepEnd (name : Mnemonic) (x : Nibble) (s t : State) (r : StepReport) : Prop :=
  t.pc.toNat = s.pc.toNat + 1 ∧ t.ir = fetchedByte s ∧ t.mem = s.mem ∧
    if s.pc.toNat = 15 then
      t.halted = true ∧ t.cause = .pcOverflow ∧ r = .haltPcOverflow ⟨name, x, true, t.snapshot⟩
    else
      t.halted = false ∧ t.cause = s.cause ∧ r = .executed ⟨name, x, false, t.snapshot⟩

/-- What R109's table says of a step from `s` to `t` that reports `r`, and R110 of the report's fields. -/
def outcomeRow (s t : State) : StepReport → Prop
  | .executed x =>
    runnable s = true ∧ x.name ≠ .HLT ∧ t.pc.toNat < 16 ∧ t.halted = false ∧ t.cause = .none ∧
      opcodeOf x.name = opcodeField t.ir ∧ x.operand = operandField t.ir ∧
      x.halted = t.halted ∧ x.after = t.snapshot
  | .haltHlt x =>
    runnable s = true ∧ x.name = .HLT ∧ t.halted = true ∧ t.cause = .hlt ∧
      opcodeOf x.name = opcodeField t.ir ∧ x.operand = operandField t.ir ∧
      x.halted = t.halted ∧ x.after = t.snapshot
  | .haltPcOverflow x =>
    runnable s = true ∧ x.name ≠ .HLT ∧ s.pc.toNat = 15 ∧ t.pc.toNat = 16 ∧ t.halted = true ∧
      t.cause = .pcOverflow ∧ opcodeOf x.name = opcodeField t.ir ∧ x.operand = operandField t.ir ∧
      x.halted = t.halted ∧ x.after = t.snapshot
  | .decodeError opcode address halted after =>
    runnable s = true ∧ 3 ≤ opcode.toNat ∧ opcode.toNat ≤ 13 ∧ opcode = opcodeField t.ir ∧
      address.toNat = s.pc.toNat ∧ t.halted = true ∧ t.cause = .decodeError ∧
      halted = t.halted ∧ after = t.snapshot
  | .notRunnable => runnable s = false ∧ t = s ∧ t.halted = true

/-- STEP as 40_instruction_cycle.md R108 writes it out, one flat sequence over whole numbers: no decoder,
no instruction type, no shared operation but the reading of a cell. -/
def stepAsWritten (s : State) : State :=
  if s.pc.toNat < 16 ∧ s.halted = false then
    let fa := s.pc.toNat
    let pc := fa + 1
    let ir := (s.mem.readAt fa).toNat
    let opcode := ir / 16
    let operand := ir % 16
    let cell := (s.mem.readAt operand).toNat
    let fetched : State := { s with pc := BitVec.ofNat 5 pc, mar := BitVec.ofNat 4 fa, ir := BitVec.ofNat 8 ir }
    let overflow (t : State) : State := if pc = 16 then { t with halted := true, cause := .pcOverflow } else t
    if opcode = 0 then
      overflow { fetched with mar := BitVec.ofNat 4 operand, acc := BitVec.ofNat 8 cell }
    else if opcode = 1 then
      overflow { fetched with
        mar := BitVec.ofNat 4 operand, b := BitVec.ofNat 8 cell,
        acc := BitVec.ofNat 8 ((s.acc.toNat + cell) % 256) }
    else if opcode = 2 then
      overflow { fetched with
        mar := BitVec.ofNat 4 operand, b := BitVec.ofNat 8 cell,
        acc := BitVec.ofNat 8 ((s.acc.toNat + (255 - cell) + 1) % 256) }
    else if opcode = 14 then overflow { fetched with out := s.acc }
    else if opcode = 15 then { fetched with halted := true, cause := .hlt }
    else { fetched with halted := true, cause := .decodeError }
  else s

/-- The instructions a memory holds from address `a` up, in address order: through the first HLT, up to
the first reserved byte, at most `n` of them. Control is sequential, so a run executes these
(40_instruction_cycle.md R112). -/
def programFrom (m : Memory) : Nat → Nat → List Instr
  | 0, _ => []
  | n + 1, a =>
    match decode (m.readAt a) with
    | .error _ => []
    | .ok i => if i.mnemonic = .HLT then [i] else i :: programFrom m n (a + 1)

/-- The exact, unreduced effect of one instruction on the pair of accumulator and output, as integers. -/
def exactEffect (m : Memory) (v : Int × Int) : Instr → Int × Int
  | .lda a => ((m.readAt a.toNat).toNat, v.2)
  | .add a => (v.1 + (m.readAt a.toNat).toNat, v.2)
  | .sub a => (v.1 - (m.readAt a.toNat).toNat, v.2)
  | .out _ => (v.1, v.1)
  | .hlt _ => v

/-- The exact accumulator and output of a whole program that starts from zeros (41_load_arithmetic.md R125). -/
def exactResult (m : Memory) : Int × Int := (programFrom m 16 0).foldl (exactEffect m) (0, 0)

/-- Two states agree on what later steps can depend on: `pc`, `acc`, `halted` and memory. They may differ
in `mar`, `ir`, `b`, `out` and `cause`. -/
abbrev State.agree (s t : State) : Prop :=
  s.pc = t.pc ∧ s.acc = t.acc ∧ s.halted = t.halted ∧ s.mem = t.mem

/-- An element of two runs, from `s` to `s'` and from `t` to `t'`: it is the same at both ends, or neither run
has changed it. -/
abbrev sameOrKept {α : Type} (x : State → α) (s t s' t' : State) : Prop :=
  x s' = x t' ∨ (x s' = x s ∧ x t' = x t)

end Sys2Proof.Machine
end

