-- ==== Sys2Proof/Certificates/Slice0/Obligations.lean ====
section
/-! DEFINITION. The statements about the engine, for the provers. A statement `exec i s = .next t` with every
field of `t` given is the instruction's result, its frame and its completion at once; memory equal as data is
every cell reading as before. -/

open Sys2Proof Sys2Proof.Machine

/-! ## The execute phases -/

/-- LDA a (41_load_arithmetic.md R120), from every state and for every address: `mar` and `acc` are written,
everything else is as before. -/
def Obligations.ExecLdaLoadsTheNamedCell : Prop :=
  ∀ (a : Nibble) (s : State), exec (.lda a) s = .next
    { pc := s.pc, mar := a, ir := s.ir, acc := memRead s.mem a, b := s.b, out := s.out,
      halted := s.halted, cause := s.cause, mem := s.mem }

/-- ADD a (R121): `b` takes the cell, `acc` the sum modulo 256 over whole numbers; everything but `mar`, `b`
and `acc` is as before. -/
def Obligations.ExecAddSumsModulo256 : Prop :=
  ∀ (a : Nibble) (s : State), ∃ t, exec (.add a) s = .next t ∧ t.mar = a ∧ t.b = memRead s.mem a ∧
    t.acc.toNat = (s.acc.toNat + (memRead s.mem a).toNat) % 256 ∧
    t.pc = s.pc ∧ t.ir = s.ir ∧ t.out = s.out ∧ t.halted = s.halted ∧ t.cause = s.cause ∧ t.mem = s.mem

/-- SUB a (R122): `b` takes the cell, `acc` the difference modulo 256 over the integers, which is the sum
`acc + (255 - b) + 1` modulo 256; everything but `mar`, `b` and `acc` is as before. -/
def Obligations.ExecSubSubtractsModulo256 : Prop :=
  ∀ (a : Nibble) (s : State), ∃ t, exec (.sub a) s = .next t ∧ t.mar = a ∧ t.b = memRead s.mem a ∧
    (t.acc.toNat : Int) = ((s.acc.toNat : Int) - ((memRead s.mem a).toNat : Int)) % 256 ∧
    t.acc.toNat = (s.acc.toNat + (255 - (memRead s.mem a).toNat) + 1) % 256 ∧
    t.pc = s.pc ∧ t.ir = s.ir ∧ t.out = s.out ∧ t.halted = s.halted ∧ t.cause = s.cause ∧ t.mem = s.mem

/-- OUT (42_output_halt.md R140), whatever its nibble: `out` takes `acc`, everything else is as before. -/
def Obligations.ExecOutCopiesTheAccumulator : Prop :=
  ∀ (x : Nibble) (s : State), exec (.out x) s = .next
    { pc := s.pc, mar := s.mar, ir := s.ir, acc := s.acc, b := s.b, out := s.acc,
      halted := s.halted, cause := s.cause, mem := s.mem }

/-- HLT (R141), whatever its nibble: `halted` and `cause` are written, everything else is as before. -/
def Obligations.ExecHltHaltsWithCauseHlt : Prop :=
  ∀ (x : Nibble) (s : State), exec (.hlt x) s = .next
    { pc := s.pc, mar := s.mar, ir := s.ir, acc := s.acc, b := s.b, out := s.out,
      halted := true, cause := .hlt, mem := s.mem }

/-- 40_instruction_cycle.md R106: every execute phase completes, and none writes `pc`, `ir` or memory. -/
def Obligations.ExecutePhasesKeepPcIrAndMemory : Prop :=
  ∀ (i : Instr) (s : State), ∃ t, exec i s = .next t ∧ t.pc = s.pc ∧ t.ir = s.ir ∧ t.mem = s.mem

/-! ## The instruction cycle -/

/-- The fetch phase of a runnable state (40_instruction_cycle.md R101 to R103): `mar` takes the program
counter, `pc` its exact successor in 1..16, `ir` the byte at that address; nothing else changes. -/
def Obligations.FetchLatchesAddressSuccessorAndByte : Prop :=
  ∀ s : State, s.pc.toNat < 16 → s.halted = false →
    (fetch s).mar.toNat = s.pc.toNat ∧ (fetch s).pc.toNat = s.pc.toNat + 1 ∧
    1 ≤ (fetch s).pc.toNat ∧ (fetch s).pc.toNat ≤ 16 ∧ (fetch s).ir = memRead s.mem (fetch s).mar ∧
    (fetch s).acc = s.acc ∧ (fetch s).b = s.b ∧ (fetch s).out = s.out ∧
    (fetch s).halted = s.halted ∧ (fetch s).cause = s.cause ∧ (fetch s).mem = s.mem

/-- A step runs the decoded instruction: from a runnable state whose byte at the program counter decodes to
`i`, STEP is `exec i` after the fetch and before the end-of-step check. -/
def Obligations.StepRunsTheDecodedInstruction : Prop :=
  ∀ (s : State) (i : Instr), runnable s = true → decode (memRead s.mem (pcAddress s)) = .ok i →
    step s = onNext endOfStep (exec i (fetch s))

/-- R107: after an execute phase that leaves `halted == 0` and `pc == 16` the step halts with PC_OVERFLOW and
reports it, the execute effects standing; after any other the state is as the execute phase left it, and a
decode error keeps its own cause. -/
def Obligations.StepPastAddressFifteenHaltsWithPcOverflow : Prop :=
  (∀ (s : State) (i : Instr) (e : State), runnable s = true → decode (fetchedByte s) = .ok i →
    exec i (fetch s) = .next e →
    if e.halted = false ∧ e.pc.toNat = 16 then
      step s = .next { e with halted := true, cause := .pcOverflow } ∧
        ∃ x, stepReport s = .next (.haltPcOverflow x)
    else step s = .next e ∧ ∀ x, stepReport s ≠ .next (.haltPcOverflow x)) ∧
  (∀ (s : State) (r : DecodeRefusal), runnable s = true → decode (fetchedByte s) = .error r →
    ∃ t, step s = .next t ∧ t.cause = .decodeError ∧ ∀ x, stepReport s ≠ .next (.haltPcOverflow x))

/-- R100 and 60_exceptions.md R161: STEP that is not runnable changes nothing and reports NOT_RUNNABLE, one that
is runnable never reports it; under the invariant the test is that of `halted` alone. -/
def Obligations.StepNotRunnableChangesNothing : Prop :=
  ∀ s : State,
    (¬(s.pc.toNat < 16 ∧ s.halted = false) → step s = .next s ∧ stepReport s = .next .notRunnable) ∧
    (s.pc.toNat < 16 ∧ s.halted = false → stepReport s ≠ .next .notRunnable) ∧
    (s.Inv → ((s.pc.toNat < 16 ∧ s.halted = false) ↔ s.halted = false))

/-- The step of a byte `0000aaaa` (R120). -/
def Obligations.StepLdaLoadsAndAdvances : Prop :=
  ∀ (s : State) (a : Nibble), s.pc.toNat < 16 → s.halted = false → fetchedByte s = 0b0000#4 ++ a →
    ∃ t r, step s = .next t ∧ stepReport s = .next r ∧
      t.mar = a ∧ t.acc = memRead s.mem a ∧ t.b = s.b ∧ t.out = s.out ∧ plainStepEnd .LDA a s t r

/-- The step of a byte `0001aaaa` (R121). -/
def Obligations.StepAddSumsAndAdvances : Prop :=
  ∀ (s : State) (a : Nibble), s.pc.toNat < 16 → s.halted = false → fetchedByte s = 0b0001#4 ++ a →
    ∃ t r, step s = .next t ∧ stepReport s = .next r ∧
      t.mar = a ∧ t.b = memRead s.mem a ∧
      t.acc.toNat = (s.acc.toNat + (memRead s.mem a).toNat) % 256 ∧ t.out = s.out ∧
      plainStepEnd .ADD a s t r

/-- The step of a byte `0010aaaa` (R122). -/
def Obligations.StepSubSubtractsAndAdvances : Prop :=
  ∀ (s : State) (a : Nibble), s.pc.toNat < 16 → s.halted = false → fetchedByte s = 0b0010#4 ++ a →
    ∃ t r, step s = .next t ∧ stepReport s = .next r ∧
      t.mar = a ∧ t.b = memRead s.mem a ∧
      (t.acc.toNat : Int) = ((s.acc.toNat : Int) - ((memRead s.mem a).toNat : Int)) % 256 ∧
      t.acc.toNat = (s.acc.toNat + (255 - (memRead s.mem a).toNat) + 1) % 256 ∧ t.out = s.out ∧
      plainStepEnd .SUB a s t r

/-- The step of a byte `1110xxxx` (42_output_halt.md R140): `mar` keeps the fetch address. -/
def Obligations.StepOutCopiesAndAdvances : Prop :=
  ∀ (s : State) (x : Nibble), s.pc.toNat < 16 → s.halted = false → fetchedByte s = 0b1110#4 ++ x →
    ∃ t r, step s = .next t ∧ stepReport s = .next r ∧
      t.out = s.acc ∧ t.mar.toNat = s.pc.toNat ∧ t.acc = s.acc ∧ t.b = s.b ∧ plainStepEnd .OUT x s t r

/-- The step of a byte `1111xxxx` (R141), at every address, 15 included: the report is HALT_HLT, and every
later STEP reports NOT_RUNNABLE and changes nothing. -/
def Obligations.StepHltHaltsAtEveryAddress : Prop :=
  ∀ (s : State) (x : Nibble), s.pc.toNat < 16 → s.halted = false → fetchedByte s = 0b1111#4 ++ x →
    ∃ t, step s = .next t ∧ stepReport s = .next (.haltHlt ⟨.HLT, x, true, t.snapshot⟩) ∧
      t.halted = true ∧ t.cause = .hlt ∧ t.pc.toNat = s.pc.toNat + 1 ∧ t.mar.toNat = s.pc.toNat ∧
      t.ir = fetchedByte s ∧ t.acc = s.acc ∧ t.b = s.b ∧ t.out = s.out ∧ t.mem = s.mem ∧
      ∀ k, runSteps k t = .next t ∧ stepReport t = .next .notRunnable

/-- 60_exceptions.md R160: a byte 0x30 to 0xDF halts the engine with the fetch committed and nothing executed,
reports its opcode and the address it was fetched from, and only RESET or LOAD recovers; no other byte raises it. -/
def Obligations.StepDecodeErrorCommitsTheFetchAndHalts : Prop :=
  (∀ s : State, s.pc.toNat < 16 → s.halted = false →
    0x30 ≤ (fetchedByte s).toNat → (fetchedByte s).toNat ≤ 0xDF →
    ∃ t opcode address, step s = .next t ∧ t.mar.toNat = s.pc.toNat ∧ t.pc.toNat = s.pc.toNat + 1 ∧
      t.ir = fetchedByte s ∧ t.acc = s.acc ∧ t.b = s.b ∧ t.out = s.out ∧ t.mem = s.mem ∧
      t.halted = true ∧ t.cause = .decodeError ∧
      stepReport s = .next (.decodeError opcode address true t.snapshot) ∧
      opcode.toNat = (fetchedByte s).toNat / 16 ∧ address.toNat = s.pc.toNat ∧ address = t.mar ∧
      (∀ k, runSteps k t = .next t) ∧ stepReport t = .next .notRunnable ∧
      serve .reset (Engine.ready t) = .next (Engine.ready State.reset, .done) ∧
      ∀ image, imageOk image = true →
        serve (.load image) (Engine.ready t) = .next (Engine.ready (State.loaded image), .done)) ∧
  ∀ s : State, ((fetchedByte s).toNat < 0x30 ∨ 0xDF < (fetchedByte s).toNat) →
    ∀ opcode address halted after, stepReport s ≠ .next (.decodeError opcode address halted after)

/-- R109 and R110: under the invariant every STEP answers a next state and exactly one of the five outcomes, and
the row of R109's table and the report's fields hold for the outcome it reports. -/
def Obligations.EveryStepHasOneOfTheFiveOutcomes : Prop :=
  ∀ s : State, s.Inv → ∃ t r, step s = .next t ∧ stepReport s = .next r ∧ outcomeRow s t r

/-- No STEP faults or is refused, from any state, and none writes memory (20_memory.md R53, R58). -/
def Obligations.NoStepFaultsAndNoneWritesMemory : Prop :=
  ∀ s : State, ∃ t, step s = .next t ∧ t.mem = s.mem ∧ ∀ a, memRead t.mem a = memRead s.mem a

/-- Who writes each register (10_state.md R23 to R27), by the high nibble of the fetched byte: `acc` only LDA, ADD
and SUB; `b` only ADD and SUB; `out` only OUT; `mar` the operand for LDA, ADD and SUB and the fetch address for
every other byte; `ir` the fetched byte. -/
def Obligations.EachRegisterIsWrittenByItsInstructionsOnly : Prop :=
  ∀ s : State, runnable s = true → ∃ t, step s = .next t ∧
    ((fetchedByte s).toNat / 16 ∉ [0, 1, 2] → t.acc = s.acc) ∧
    ((fetchedByte s).toNat / 16 ∉ [1, 2] → t.b = s.b) ∧
    ((fetchedByte s).toNat / 16 ≠ 14 → t.out = s.out) ∧
    t.mar.toNat = (if (fetchedByte s).toNat / 16 ∈ [0, 1, 2] then (fetchedByte s).toNat % 16 else s.pc.toNat) ∧
    t.ir = fetchedByte s

/-- Light `i` shows bit `i` of `out`, and only OUT changes the lights (60_exceptions.md R168). -/
def Obligations.LightsShowTheOutputRegister : Prop :=
  (∀ (s : State) (i : Fin 8), s.light i = s.out.toNat.testBit i.val) ∧
  ∀ s : State, ∃ t, step s = .next t ∧ ∀ i : Fin 8, t.light i =
    if runnable s = true ∧ (fetchedByte s).toNat / 16 = 14 then s.acc.toNat.testBit i.val else s.light i

/-- STEP is R108's sequence, written out over whole numbers without decoder or shared operations. -/
def Obligations.StepIsTheSequenceAsWritten : Prop :=
  ∀ s : State, step s = .next (stepAsWritten s)

/-! ## Runs -/

/-- Every step keeps the invariant, from every state that meets it: the clauses of 10_state.md R22 and R30 and of
60_exceptions.md R162, and the canonical form of the memory list, which is the model's DESIGN CHOICE
(notes/assumptions/1.md). -/
def Obligations.EveryStepKeepsTheEngineInvariant : Prop :=
  ∀ s t : State, s.Inv → step s = .next t → t.Inv

/-- The state after RESET meets the invariant, and so does the state after LOAD of any image (10_state.md R22, R30, R36,
60_exceptions.md R162). The invariant's clause on the canonical form of the memory list is the model's DESIGN CHOICE
(notes/assumptions/1.md). -/
def Obligations.ResetAndLoadMeetTheEngineInvariant : Prop :=
  State.reset.Inv ∧ ∀ image, imageOk image = true → (State.loaded image).Inv

/-- Every session that starts at power-on and has seen a RESET or LOAD is in a state of the invariant (10_state.md R22,
R30, 60_exceptions.md R162). The invariant's clause on the canonical form of the memory list
(notes/assumptions/1.md) and the bit `defined` (notes/assumptions/7.md) are the model's DESIGN CHOICES. -/
def Obligations.EverySessionKeepsTheEngineInvariant : Prop :=
  ∀ (ops : List HostOp) (e : Engine), sessionState ops Engine.powerOn = .next e → e.defined = true → e.state.Inv

/-- 40_instruction_cycle.md R113: from `pc == p` and not halted, at most `16 - p` steps run before the engine is
halted; while it is not, each has moved `pc` on by exactly one, so addresses strictly increase. From LOAD at
most 16. -/
def Obligations.EveryRunHaltsWithinSixteenSteps : Prop :=
  (∀ s : State, s.pc.toNat < 16 → s.halted = false →
    (∃ t, runSteps (16 - s.pc.toNat) s = .next t ∧ t.halted = true) ∧
    ∀ k t, runSteps k s = .next t → t.halted = false → t.pc.toNat = s.pc.toNat + k) ∧
  ∀ image, imageOk image = true → ∃ t, runSteps 16 (State.loaded image) = .next t ∧ t.halted = true

/-- R114: the continuous run needs at most 16 steps, ends with a report that ends it and a halted engine, and leaves
the state that as many single steps leave. -/
def Obligations.ContinuousRunEndsHalted : Prop :=
  ∀ s : State, s.Inv → ∃ t rs r, continuousRun 16 s = .next (t, rs) ∧ runSteps rs.length s = .next t ∧
    t.halted = true ∧ rs.getLast? = some r ∧ r.endsRun = true ∧ ∀ r' ∈ rs.dropLast, r'.endsRun = false

/-- 60_exceptions.md R172: in the halted state STEP and SNAPSHOT change nothing however often they are asked for,
SNAPSHOT still reads every element, and RESET and LOAD end it. -/
def Obligations.HaltedEngineWaitsForResetOrLoad : Prop :=
  ∀ s : State, s.halted = true →
    (∀ ops : List HostOp, (∀ op ∈ ops, op = .step ∨ op = .snapshot) →
      sessionState ops (Engine.ready s) = .next (Engine.ready s)) ∧
    serve .snapshot (Engine.ready s) = .next (Engine.ready s, .observed s.snapshot) ∧
    serve .reset (Engine.ready s) = .next (Engine.ready State.reset, .done) ∧
    ∀ image, imageOk image = true →
      serve (.load image) (Engine.ready s) = .next (Engine.ready (State.loaded image), .done)

/-- 41_load_arithmetic.md R125: for every image, the run from LOAD to its halt leaves `acc` equal to the exact
integer result of the program's LDA, ADD and SUB sequence reduced modulo 256 once at the end, and `out` equal to
that result at the last OUT, or 0. -/
def Obligations.ProgramResultIsExactArithmeticModulo256 : Prop :=
  ∀ image, imageOk image = true → ∃ t, runSteps 16 (State.loaded image) = .next t ∧ t.halted = true ∧
    (t.acc.toNat : Int) = (exactResult (State.loaded image).mem).1 % 256 ∧
    (t.out.toNat : Int) = (exactResult (State.loaded image).mem).2 % 256

/-- What a step does depends on `pc`, `acc`, `halted` and memory alone (10_state.md R26, R27; 41_load_arithmetic.md
R124), and so `b`, `out`, `mar`, `ir` and `cause` never affect a later step. From two runnable states that agree on those
four, one step gives states that agree on them again and have equal `mar` and `ir`, equal `out` where the byte is OUT, equal
`b` where it is ADD or SUB, and equal `cause` where the step halts. After any number of steps from two states that agree,
runnable or not, each of the other five elements is the same in both, or is in both what it was at the start. -/
def Obligations.LaterStepsDependOnPcAccHaltedAndMemoryOnly : Prop :=
  (∀ s t : State, s.agree t → runnable s = true →
    ∃ s' t', step s = .next s' ∧ step t = .next t' ∧ s'.agree t' ∧ s'.mar = t'.mar ∧ s'.ir = t'.ir ∧
      ((fetchedByte s).toNat / 16 = 14 → s'.out = t'.out) ∧
      ((fetchedByte s).toNat / 16 ∈ [1, 2] → s'.b = t'.b) ∧
      (s'.halted = true → s'.cause = t'.cause)) ∧
  ∀ (k : Nat) (s t : State), s.agree t →
    ∃ s' t', runSteps k s = .next s' ∧ runSteps k t = .next t' ∧ s'.agree t' ∧
      sameOrKept State.mar s t s' t' ∧ sameOrKept State.ir s t s' t' ∧ sameOrKept State.b s t s' t' ∧
      sameOrKept State.out s t s' t' ∧ sameOrKept State.cause s t s' t'

/-! ## Encoding -/

/-- Decode and encode are inverse: every instruction, its operand at every value, decodes from its own byte; every
byte that decodes is the byte of the instruction it decodes to, so no bit of an encoding is dropped; and exactly the
bytes 0x30 to 0xDF decode to none. -/
def Obligations.DecodeAndEncodeAreInverse : Prop :=
  (∀ i : Instr, decode (encode i) = .ok i) ∧
  (∀ (v : Byte) (i : Instr), decode v = .ok i → encode i = v) ∧
  (∀ v : Byte, (∃ r, decode v = .error r) ↔ 0x30 ≤ v.toNat ∧ v.toNat ≤ 0xDF)

/-- 30_encoding.md R74 in its match and mask form: each instruction is selected by exactly the bytes of its row, the
bytes 0x30 to 0xDF are decode errors, and the operand is the low nibble. -/
def Obligations.OpcodeMapSelectsByMatchAndMask : Prop :=
  ∀ v : Byte,
    ((v &&& 0xF0 = 0x00) ↔ ∃ a, decode v = .ok (.lda a)) ∧
    ((v &&& 0xF0 = 0x10) ↔ ∃ a, decode v = .ok (.add a)) ∧
    ((v &&& 0xF0 = 0x20) ↔ ∃ a, decode v = .ok (.sub a)) ∧
    ((v &&& 0xF0 = 0xE0) ↔ ∃ x, decode v = .ok (.out x)) ∧
    ((v &&& 0xF0 = 0xF0) ↔ ∃ x, decode v = .ok (.hlt x)) ∧
    (0x30 ≤ v.toNat ∧ v.toNat ≤ 0xDF ↔ ∃ r, decode v = .error r) ∧
    (∀ i, decode v = .ok i → i.operand.toNat = v.toNat % 16)

/-- R73: the operand nibble of OUT and HLT is ignored, bytes 0xE0 to 0xEF being OUT and 0xF0 to 0xFF HLT. -/
def Obligations.OutAndHltIgnoreTheirNibble : Prop :=
  (∀ x y s, exec (.out x) s = exec (.out y) s ∧ exec (.hlt x) s = exec (.hlt y) s) ∧
  (∀ v : Byte, 0xE0 ≤ v.toNat → v.toNat ≤ 0xEF → ∃ x, decode v = .ok (.out x)) ∧
  (∀ v : Byte, 0xF0 ≤ v.toNat → ∃ x, decode v = .ok (.hlt x)) ∧
  asmOperand .OUT none = .ok 0 ∧ asmOperand .HLT none = .ok 0

/-- R76: every byte decodes to one instruction or the decode error, and the high nibble alone selects which. -/
def Obligations.HighNibbleAloneSelectsTheInstruction : Prop :=
  ∀ v w : Byte, v.toNat / 16 = w.toNat / 16 →
    (decode v).toOption.map Instr.mnemonic = (decode w).toOption.map Instr.mnemonic

/-- Words of the spec's worked programs, written out bit by bit from R74's patterns, decode as it says. -/
def Obligations.WordsOfTheTableDecodeAsWritten : Prop :=
  decode 0b00001110 = .ok (.lda 14) ∧ decode 0b00011111 = .ok (.add 15) ∧
  decode 0b00101111 = .ok (.sub 15) ∧ decode 0b11100000 = .ok (.out 0) ∧
  decode 0b11110101 = .ok (.hlt 5) ∧ decode 0b00111100 = .error (.reservedOpcode 3) ∧
  decode 0b11011111 = .error (.reservedOpcode 13)

/-- R77: an instruction byte the assembler makes disassembles to the same mnemonic and operand, and every byte of OUT
and HLT as `OUT` and `HLT`, whatever its nibble. -/
def Obligations.DisassemblyReturnsTheAssembledStatement : Prop :=
  (∀ (name : Mnemonic) (operand : Option Nat) (x : Nibble), asmOperand name operand = .ok x →
    disassemble (encode (name.instr x)) = some (.instr name operand)) ∧
  ∀ x : Nibble, disassemble (0b1110#4 ++ x) = some (.instr .OUT none) ∧
    disassemble (0b1111#4 ++ x) = some (.instr .HLT none)

/-- 30_encoding.md R79: the image effect of each statement, where its operand is legal and its cell is free: an
instruction's byte, its opcode's base plus its operand, at the instruction pointer, which increments; ORG sets the data
pointer alone; DB's value at the data pointer, which increments. -/
def Obligations.AssemblyStatementsHaveTheirImageEffect : Prop :=
  ∀ c : AsmState,
    (∀ (name : Mnemonic) (operand : Option Nat) (x : Nibble), asmOperand name operand = .ok x →
      c.ip < 16 → c.written.lookup c.ip = none →
      asmStatement c (.instr name operand) = .ok
        { ip := c.ip + 1, dp := c.dp,
          written := (c.ip, (match name with
            | .LDA => 0x00 | .ADD => 0x10 | .SUB => 0x20 | .OUT => 0xE0 | .HLT => 0xF0) + x.toNat) :: c.written }) ∧
    (∀ a, a < 16 → asmStatement c (.org a) = .ok { ip := c.ip, dp := some a, written := c.written }) ∧
    (∀ v d, c.dp = some d → d < 16 → v < 256 → c.written.lookup d = none →
      asmStatement c (.db v) = .ok { ip := c.ip, dp := some (d + 1), written := (d, v) :: c.written })

/-- R81: each of the listed errors stops its statement with its own cause. R81 does not say which cause is named on a
line with two errors, and the precedence stated here is the model's DESIGN CHOICE (notes/assumptions/15.md): a bad,
missing or extra operand before exhausted memory, a DB value out of range before exhausted memory, and DB before ORG
before the range of its value. -/
def Obligations.AssemblyFailsOnEachListedError : Prop :=
  ∀ c : AsmState,
    (∀ n, 16 ≤ n → asmStatement c (.org n) = .error (.failed .operandRange)) ∧
    (∀ name n, name ≠ .OUT → name ≠ .HLT → 16 ≤ n →
      asmStatement c (.instr name (some n)) = .error (.failed .operandRange)) ∧
    (∀ v d, c.dp = some d → 256 ≤ v → asmStatement c (.db v) = .error (.failed .valueRange)) ∧
    (∀ v, c.dp = none → asmStatement c (.db v) = .error (.failed .dbBeforeOrg)) ∧
    (∀ name, asmStatement c (.other name) = .error (.failed .unknownMnemonic)) ∧
    (∀ name operand x, asmOperand name operand = .ok x → 16 ≤ c.ip →
      asmStatement c (.instr name operand) = .error (.failed .memoryExhausted)) ∧
    (∀ v d, c.dp = some d → v < 256 → 16 ≤ d →
      asmStatement c (.db v) = .error (.failed .memoryExhausted)) ∧
    (∀ name, name ≠ .OUT → name ≠ .HLT →
      asmStatement c (.instr name none) = .error (.failed .missingOperand)) ∧
    (∀ n, asmStatement c (.instr .OUT (some n)) = .error (.failed .extraOperand) ∧
      asmStatement c (.instr .HLT (some n)) = .error (.failed .extraOperand))

/-- A text that assembles makes a memory image, 16 values in 0..255, which LOAD accepts (R81, R83;
70_reset_and_hazards.md R193). -/
def Obligations.AssembledTextsAreLoadableImages : Prop :=
  ∀ (lines : List (Option AsmStatement)) (image : List Nat), assemble lines = .image image →
    imageOk image = true ∧
    ∀ e, serve (.load image) e = .next (Engine.ready (State.loaded image), .done)

/-! ## Host operations -/

/-- 10_state.md R36, 70_reset_and_hazards.md R192 and R194: what RESET and LOAD leave, from every engine, power-on
and halted ones too. -/
def Obligations.ResetAndLoadLeaveTheStatedValues : Prop :=
  ∀ e : Engine,
    (∃ t, serve .reset e = .next (Engine.ready t, .done) ∧
      t.pc = 0 ∧ t.mar = 0 ∧ t.ir = 0 ∧ t.acc = 0 ∧ t.b = 0 ∧ t.out = 0 ∧ t.halted = false ∧
      t.cause = .none ∧ ∀ a, memRead t.mem a = 0) ∧
    ∀ image, imageOk image = true →
      ∃ t, serve (.load image) e = .next (Engine.ready t, .done) ∧
        t.pc = 0 ∧ t.mar = 0 ∧ t.ir = 0 ∧ t.acc = 0 ∧ t.b = 0 ∧ t.out = 0 ∧ t.halted = false ∧
        t.cause = .none ∧ ∀ a : Nibble, image[a.toNat]? = some (memRead t.mem a).toNat

/-- LOAD of anything but 16 values in 0..255 is refused by name, from every engine (R193; that the refusal has this
form is the model's choice, notes/assumptions/11.md). -/
def Obligations.LoadOfWhatIsNoImageIsRefused : Prop :=
  ∀ (image : List Nat) (e : Engine), ¬(image.length = 16 ∧ ∀ v ∈ image, v < 256) →
    serve (.load image) e = .refused .loadNotImage

/-- 10_state.md R35: SNAPSHOT changes nothing and returns every register and all 16 cells in index order. -/
def Obligations.SnapshotReturnsEveryElementAndChangesNothing : Prop :=
  ∀ e : Engine, ∃ v, serve .snapshot e = .next (e, .observed v) ∧
    v.pc = e.state.pc ∧ v.mar = e.state.mar ∧ v.ir = e.state.ir ∧ v.acc = e.state.acc ∧
    v.b = e.state.b ∧ v.out = e.state.out ∧ v.halted = e.state.halted ∧
    HaltCause.ofCode v.cause = e.state.cause ∧ v.cells.length = 16 ∧
    ∀ a : Nibble, v.cells[a.toNat]? = some (memRead e.state.mem a)

/-- 60_exceptions.md R162 and 10_state.md R30: the codes of `cause`, which SNAPSHOT reads back. -/
def Obligations.HaltCauseCodesAreTheTables : Prop :=
  HaltCause.none.code = 0 ∧ HaltCause.hlt.code = 1 ∧ HaltCause.pcOverflow.code = 2 ∧
    HaltCause.decodeError.code = 3 ∧ ∀ c : HaltCause, HaltCause.ofCode c.code = c

/-- 20_memory.md R59: after any session, whatever it steps, memory is what the last RESET or LOAD of it wrote, and
what it was before where there is none. -/
def Obligations.MemoryIsWhatTheLastResetOrLoadWrote : Prop :=
  ∀ (ops : List HostOp) (e e' : Engine), sessionState ops e = .next e' →
    e'.state.mem = lastImage ops e.state.mem

/-- 70_reset_and_hazards.md R195: RESET followed by LOAD(image), and LOAD(image) alone, give the same state whatever
happened before. -/
def Obligations.LoadedStateForgetsTheHistory : Prop :=
  ∀ (ops : List HostOp) (e e' : Engine) (image : List Nat), imageOk image = true →
    sessionState ops e = .next e' →
    sessionState (ops ++ [.reset, .load image]) e = .next (Engine.ready (State.loaded image)) ∧
    sessionState (ops ++ [.load image]) e = .next (Engine.ready (State.loaded image))

/-- R196: before the first RESET or LOAD a STEP is refused, and only RESET or LOAD makes the engine defined (that
the refusal has this form is the model's choice, notes/assumptions/7.md). -/
def Obligations.PowerOnEngineStepsOnlyAfterResetOrLoad : Prop :=
  serve .step Engine.powerOn = .refused .stepBeforeReset ∧
  ∀ (ops : List HostOp) (e : Engine), sessionState ops Engine.powerOn = .next e →
    (e.defined = true ↔ ∃ op ∈ ops, op = .reset ∨ ∃ image, op = .load image) ∧
    (e.defined = false → e = Engine.powerOn)
end

