-- ==== Sys2Proof/Laws/Memory.lean ====
section
/-! SUPPORT. The laws of memory: a read after a write, and the canonical form that every operation keeps. -/

namespace Sys2Proof.Machine

/-- The addresses of a list strictly rise. -/
abbrev Memory.rising (m : Memory) : Prop := m.Pairwise (fun c d => c.1 < d.1)

@[simp] theorem Memory.readAt_nil (a : Nat) : Memory.readAt [] a = unlistedByte := rfl

theorem Memory.readAt_cons (k : Nat) (v : Byte) (rest : Memory) (a : Nat) :
    Memory.readAt ((k, v) :: rest) a = if k = a then v else Memory.readAt rest a := rfl

theorem Memory.writeAt_cons (k : Nat) (w : Byte) (rest : Memory) (a : Nat) (v : Byte) :
    Memory.writeAt ((k, w) :: rest) a v =
      if a < k then (if v = unlistedByte then (k, w) :: rest else (a, v) :: (k, w) :: rest)
      else if a = k then (if v = unlistedByte then rest else (a, v) :: rest)
      else (k, w) :: Memory.writeAt rest a v := rfl

/-- Below its first address a rising list holds nothing. -/
theorem Memory.readAt_of_lt (m : Memory) (a : Nat) (h : ∀ c ∈ m, a < c.1) :
    m.readAt a = unlistedByte := by
  induction m with
  | nil => rfl
  | cons c rest ih =>
    obtain ⟨k, v⟩ := c
    have hk : a < k := h (k, v) (by simp)
    rw [Memory.readAt_cons, if_neg (by omega)]
    exact ih (fun c hc => h c (by simp [hc]))

/-- A cell listed after a write was listed before, or is the cell written, with a value worth listing. -/
theorem Memory.mem_writeAt (m : Memory) (a : Nat) (v : Byte) (c : Host.Cell)
    (hc : c ∈ m.writeAt a v) : c ∈ m ∨ (c = (a, v) ∧ v ≠ unlistedByte) := by
  induction m with
  | nil =>
    simp only [Memory.writeAt] at hc
    split at hc <;> simp_all
  | cons d rest ih =>
    obtain ⟨k, w⟩ := d
    rw [Memory.writeAt_cons] at hc
    split_ifs at hc <;> simp only [List.mem_cons] at hc ⊢
    · exact Or.inl hc
    · rcases hc with hc | hc
      · exact Or.inr ⟨hc, ‹_›⟩
      · exact Or.inl hc
    · exact Or.inl (Or.inr hc)
    · rcases hc with hc | hc
      · exact Or.inr ⟨hc, ‹_›⟩
      · exact Or.inl (Or.inr hc)
    · rcases hc with hc | hc
      · exact Or.inl (Or.inl hc)
      · rcases ih hc with h | h
        · exact Or.inl (Or.inr h)
        · exact Or.inr h

/-- A write keeps the addresses rising. -/
theorem Memory.writeAt_rising (m : Memory) (a : Nat) (v : Byte) (h : m.rising) :
    (m.writeAt a v).rising := by
  induction m with
  | nil =>
    simp only [Memory.writeAt]
    split <;> simp [Memory.rising]
  | cons d rest ih =>
    obtain ⟨k, w⟩ := d
    obtain ⟨hk, hrest⟩ := List.pairwise_cons.1 h
    rw [Memory.writeAt_cons]
    split_ifs with h1 h2 h3 h4
    · exact h
    · refine List.pairwise_cons.2 ⟨fun c hc => ?_, h⟩
      rcases List.mem_cons.1 hc with rfl | hc
      · exact h1
      · exact lt_trans h1 (hk c hc)
    · exact hrest
    · subst h3
      exact List.pairwise_cons.2 ⟨hk, hrest⟩
    · refine List.pairwise_cons.2 ⟨fun c hc => ?_, ih hrest⟩
      rcases Memory.mem_writeAt rest a v c hc with hc | ⟨rfl, -⟩
      · exact hk c hc
      · show k < a
        omega

/-- A write to one of the 16 cells keeps the canonical form. -/
theorem Memory.writeAt_wf (m : Memory) (a : Nat) (v : Byte) (ha : a < Config.memSize) (h : m.wf) :
    (m.writeAt a v).wf := by
  refine ⟨Memory.writeAt_rising m a v h.1, fun c hc => ?_⟩
  rcases Memory.mem_writeAt m a v c hc with hc | ⟨rfl, hv⟩
  · exact h.2 c hc
  · exact ⟨ha, hv⟩

/-- A read after a write: the value written at its address, every other address as before. -/
theorem Memory.readAt_writeAt (m : Memory) (a c : Nat) (v : Byte) (h : m.rising) :
    (m.writeAt a v).readAt c = if c = a then v else m.readAt c := by
  induction m with
  | nil =>
    by_cases hv : v = unlistedByte
    · simp [Memory.writeAt, hv]
    · simp [Memory.writeAt, hv, Memory.readAt_cons, eq_comm]
  | cons d rest ih =>
    obtain ⟨k, w⟩ := d
    obtain ⟨hk, hrest⟩ := List.pairwise_cons.1 h
    have below : ∀ x, x ≤ k → Memory.readAt rest x = unlistedByte := fun x hx =>
      Memory.readAt_of_lt rest x (fun c hc => lt_of_le_of_lt hx (hk c hc))
    rw [Memory.writeAt_cons]
    rcases lt_trichotomy a k with hak | rfl | hka
    · by_cases hv : v = unlistedByte
      · rw [if_pos hak, if_pos hv, Memory.readAt_cons]
        split_ifs with h1 h2 h2
        · omega
        · rfl
        · rw [below c (by omega), hv]
        · rfl
      · rw [if_pos hak, if_neg hv, Memory.readAt_cons]
        exact if_congr eq_comm rfl rfl
    · by_cases hv : v = unlistedByte
      · rw [if_neg (lt_irrefl a), if_pos rfl, if_pos hv, Memory.readAt_cons]
        by_cases h1 : c = a
        · rw [if_pos h1, h1, below a le_rfl, hv]
        · rw [if_neg h1, if_neg (fun h2 => h1 h2.symm)]
      · rw [if_neg (lt_irrefl a), if_pos rfl, if_neg hv, Memory.readAt_cons, Memory.readAt_cons]
        split_ifs with h1 h2 h2 <;> first | rfl | omega
    · rw [if_neg (by omega), if_neg (by omega), Memory.readAt_cons, Memory.readAt_cons, ih hrest]
      split_ifs <;> first | rfl | omega

/-- A memory operation of the host or of an instruction keeps the canonical form: `MemWrite`. -/
theorem memWrite_wf (m : Memory) (a : Nibble) (v : Byte) (h : m.wf) : (memWrite m a v).wf :=
  Memory.writeAt_wf m a.toNat v a.isLt h

/-- `MemRead` after `MemWrite`. -/
theorem memRead_memWrite (m : Memory) (a c : Nibble) (v : Byte) (h : m.wf) :
    memRead (memWrite m a v) c = if c = a then v else memRead m c := by
  unfold memRead memWrite
  rw [Memory.readAt_writeAt m a.toNat c.toNat v h.1]
  exact if_congr BitVec.toNat_inj rfl rfl

/-- A list of bytes laid out within the 16 cells has the canonical form. -/
theorem Memory.ofBytes_wf (bytes : List Byte) (a : Nat) (h : a + bytes.length ≤ Config.memSize) :
    (Memory.ofBytes a bytes).wf := by
  induction bytes generalizing a with
  | nil => exact ⟨List.Pairwise.nil, fun c hc => absurd hc List.not_mem_nil⟩
  | cons v vs ih =>
    simp only [List.length_cons] at h
    exact Memory.writeAt_wf _ a v (by omega) (ih (a + 1) (by omega))

/-- Two memories of the canonical form that read the same everywhere are equal. -/
theorem Memory.ext_readAt (m n : Memory) (hm : m.wf) (hn : n.wf)
    (h : ∀ a, m.readAt a = n.readAt a) : m = n := by
  have nonempty (k : Nat) (v : Byte) (rest : Memory) (hv : v ≠ unlistedByte) :
      Memory.readAt ((k, v) :: rest) k ≠ unlistedByte := by
    rw [Memory.readAt_cons, if_pos rfl]; exact hv
  induction m generalizing n with
  | nil =>
    cases n with
    | nil => rfl
    | cons d rest =>
      exact absurd (h d.1).symm (nonempty d.1 d.2 rest (hn.2 d (by simp)).2)
  | cons c rest ih =>
    obtain ⟨k, v⟩ := c
    obtain ⟨hk, hrest⟩ := List.pairwise_cons.1 hm.1
    have hv := (hm.2 (k, v) (by simp)).2
    cases n with
    | nil => exact absurd (h k) (nonempty k v rest hv)
    | cons d rest' =>
      obtain ⟨l, w⟩ := d
      obtain ⟨hl, hrest'⟩ := List.pairwise_cons.1 hn.1
      have hw := (hn.2 (l, w) (by simp)).2
      have above {x y : Nat} {r : Memory} (hr : ∀ c ∈ r, y < c.1) (hx : x ≤ y) :
          Memory.readAt r x = unlistedByte :=
        Memory.readAt_of_lt r x (fun c hc => lt_of_le_of_lt hx (hr c hc))
      have hkl : k = l := by
        by_contra hne
        rcases lt_or_gt_of_ne hne with hlt | hlt
        · have e := h k
          rw [Memory.readAt_cons, if_pos rfl, Memory.readAt_cons, if_neg (by omega),
            above hl (by omega)] at e
          exact hv e
        · have e := h l
          rw [Memory.readAt_cons, if_neg (by omega), above hk (by omega), Memory.readAt_cons,
            if_pos rfl] at e
          exact hw e.symm
      subst hkl
      have hvw : v = w := by
        have e := h k
        rwa [Memory.readAt_cons, if_pos rfl, Memory.readAt_cons, if_pos rfl] at e
      subst hvw
      have tails : rest = rest' := by
        refine ih rest' ⟨hrest, fun c hc => hm.2 c (by simp [hc])⟩
          ⟨hrest', fun c hc => hn.2 c (by simp [hc])⟩ (fun a => ?_)
        have e := h a
        rw [Memory.readAt_cons, Memory.readAt_cons] at e
        by_cases hka : k = a
        · rw [above hk (le_of_eq hka.symm), above hl (le_of_eq hka.symm)]
        · rwa [if_neg hka, if_neg hka] at e
      rw [tails]

end Sys2Proof.Machine
end

