-- ==== Sys2Proof/Laws/State.lean ====
section
/-! SUPPORT. One lemma for each field of State and each register write, true by rfl. -/

namespace Sys2Proof.Machine

@[simp] theorem State.setPc_pc (s : State) (v : PcWord) : (s.setPc v).pc = v := rfl
@[simp] theorem State.setPc_mar (s : State) (v : PcWord) : (s.setPc v).mar = s.mar := rfl
@[simp] theorem State.setPc_ir (s : State) (v : PcWord) : (s.setPc v).ir = s.ir := rfl
@[simp] theorem State.setPc_acc (s : State) (v : PcWord) : (s.setPc v).acc = s.acc := rfl
@[simp] theorem State.setPc_b (s : State) (v : PcWord) : (s.setPc v).b = s.b := rfl
@[simp] theorem State.setPc_out (s : State) (v : PcWord) : (s.setPc v).out = s.out := rfl
@[simp] theorem State.setPc_halted (s : State) (v : PcWord) : (s.setPc v).halted = s.halted := rfl
@[simp] theorem State.setPc_cause (s : State) (v : PcWord) : (s.setPc v).cause = s.cause := rfl
@[simp] theorem State.setPc_mem (s : State) (v : PcWord) : (s.setPc v).mem = s.mem := rfl

@[simp] theorem State.setMar_pc (s : State) (v : Nibble) : (s.setMar v).pc = s.pc := rfl
@[simp] theorem State.setMar_mar (s : State) (v : Nibble) : (s.setMar v).mar = v := rfl
@[simp] theorem State.setMar_ir (s : State) (v : Nibble) : (s.setMar v).ir = s.ir := rfl
@[simp] theorem State.setMar_acc (s : State) (v : Nibble) : (s.setMar v).acc = s.acc := rfl
@[simp] theorem State.setMar_b (s : State) (v : Nibble) : (s.setMar v).b = s.b := rfl
@[simp] theorem State.setMar_out (s : State) (v : Nibble) : (s.setMar v).out = s.out := rfl
@[simp] theorem State.setMar_halted (s : State) (v : Nibble) : (s.setMar v).halted = s.halted := rfl
@[simp] theorem State.setMar_cause (s : State) (v : Nibble) : (s.setMar v).cause = s.cause := rfl
@[simp] theorem State.setMar_mem (s : State) (v : Nibble) : (s.setMar v).mem = s.mem := rfl

@[simp] theorem State.setIr_pc (s : State) (v : Byte) : (s.setIr v).pc = s.pc := rfl
@[simp] theorem State.setIr_mar (s : State) (v : Byte) : (s.setIr v).mar = s.mar := rfl
@[simp] theorem State.setIr_ir (s : State) (v : Byte) : (s.setIr v).ir = v := rfl
@[simp] theorem State.setIr_acc (s : State) (v : Byte) : (s.setIr v).acc = s.acc := rfl
@[simp] theorem State.setIr_b (s : State) (v : Byte) : (s.setIr v).b = s.b := rfl
@[simp] theorem State.setIr_out (s : State) (v : Byte) : (s.setIr v).out = s.out := rfl
@[simp] theorem State.setIr_halted (s : State) (v : Byte) : (s.setIr v).halted = s.halted := rfl
@[simp] theorem State.setIr_cause (s : State) (v : Byte) : (s.setIr v).cause = s.cause := rfl
@[simp] theorem State.setIr_mem (s : State) (v : Byte) : (s.setIr v).mem = s.mem := rfl

@[simp] theorem State.setAcc_pc (s : State) (v : Byte) : (s.setAcc v).pc = s.pc := rfl
@[simp] theorem State.setAcc_mar (s : State) (v : Byte) : (s.setAcc v).mar = s.mar := rfl
@[simp] theorem State.setAcc_ir (s : State) (v : Byte) : (s.setAcc v).ir = s.ir := rfl
@[simp] theorem State.setAcc_acc (s : State) (v : Byte) : (s.setAcc v).acc = v := rfl
@[simp] theorem State.setAcc_b (s : State) (v : Byte) : (s.setAcc v).b = s.b := rfl
@[simp] theorem State.setAcc_out (s : State) (v : Byte) : (s.setAcc v).out = s.out := rfl
@[simp] theorem State.setAcc_halted (s : State) (v : Byte) : (s.setAcc v).halted = s.halted := rfl
@[simp] theorem State.setAcc_cause (s : State) (v : Byte) : (s.setAcc v).cause = s.cause := rfl
@[simp] theorem State.setAcc_mem (s : State) (v : Byte) : (s.setAcc v).mem = s.mem := rfl

@[simp] theorem State.setB_pc (s : State) (v : Byte) : (s.setB v).pc = s.pc := rfl
@[simp] theorem State.setB_mar (s : State) (v : Byte) : (s.setB v).mar = s.mar := rfl
@[simp] theorem State.setB_ir (s : State) (v : Byte) : (s.setB v).ir = s.ir := rfl
@[simp] theorem State.setB_acc (s : State) (v : Byte) : (s.setB v).acc = s.acc := rfl
@[simp] theorem State.setB_b (s : State) (v : Byte) : (s.setB v).b = v := rfl
@[simp] theorem State.setB_out (s : State) (v : Byte) : (s.setB v).out = s.out := rfl
@[simp] theorem State.setB_halted (s : State) (v : Byte) : (s.setB v).halted = s.halted := rfl
@[simp] theorem State.setB_cause (s : State) (v : Byte) : (s.setB v).cause = s.cause := rfl
@[simp] theorem State.setB_mem (s : State) (v : Byte) : (s.setB v).mem = s.mem := rfl

@[simp] theorem State.setOut_pc (s : State) (v : Byte) : (s.setOut v).pc = s.pc := rfl
@[simp] theorem State.setOut_mar (s : State) (v : Byte) : (s.setOut v).mar = s.mar := rfl
@[simp] theorem State.setOut_ir (s : State) (v : Byte) : (s.setOut v).ir = s.ir := rfl
@[simp] theorem State.setOut_acc (s : State) (v : Byte) : (s.setOut v).acc = s.acc := rfl
@[simp] theorem State.setOut_b (s : State) (v : Byte) : (s.setOut v).b = s.b := rfl
@[simp] theorem State.setOut_out (s : State) (v : Byte) : (s.setOut v).out = v := rfl
@[simp] theorem State.setOut_halted (s : State) (v : Byte) : (s.setOut v).halted = s.halted := rfl
@[simp] theorem State.setOut_cause (s : State) (v : Byte) : (s.setOut v).cause = s.cause := rfl
@[simp] theorem State.setOut_mem (s : State) (v : Byte) : (s.setOut v).mem = s.mem := rfl

@[simp] theorem State.halt_pc (s : State) (c : HaltCause) : (s.halt c).pc = s.pc := rfl
@[simp] theorem State.halt_mar (s : State) (c : HaltCause) : (s.halt c).mar = s.mar := rfl
@[simp] theorem State.halt_ir (s : State) (c : HaltCause) : (s.halt c).ir = s.ir := rfl
@[simp] theorem State.halt_acc (s : State) (c : HaltCause) : (s.halt c).acc = s.acc := rfl
@[simp] theorem State.halt_b (s : State) (c : HaltCause) : (s.halt c).b = s.b := rfl
@[simp] theorem State.halt_out (s : State) (c : HaltCause) : (s.halt c).out = s.out := rfl
@[simp] theorem State.halt_halted (s : State) (c : HaltCause) : (s.halt c).halted = true := rfl
@[simp] theorem State.halt_cause (s : State) (c : HaltCause) : (s.halt c).cause = c := rfl
@[simp] theorem State.halt_mem (s : State) (c : HaltCause) : (s.halt c).mem = s.mem := rfl

@[simp] theorem State.loaded_pc (image : List Nat) : (State.loaded image).pc = 0 := rfl
@[simp] theorem State.loaded_mar (image : List Nat) : (State.loaded image).mar = 0 := rfl
@[simp] theorem State.loaded_ir (image : List Nat) : (State.loaded image).ir = 0 := rfl
@[simp] theorem State.loaded_acc (image : List Nat) : (State.loaded image).acc = 0 := rfl
@[simp] theorem State.loaded_b (image : List Nat) : (State.loaded image).b = 0 := rfl
@[simp] theorem State.loaded_out (image : List Nat) : (State.loaded image).out = 0 := rfl
@[simp] theorem State.loaded_halted (image : List Nat) : (State.loaded image).halted = false := rfl
@[simp] theorem State.loaded_cause (image : List Nat) : (State.loaded image).cause = .none := rfl
@[simp] theorem State.loaded_mem (image : List Nat) :
    (State.loaded image).mem = Memory.ofBytes 0 (image.map (BitVec.ofNat 8)) := rfl

/-- Two states with the same nine elements are equal. -/
theorem State.ext_fields (s t : State) (hpc : s.pc = t.pc) (hmar : s.mar = t.mar) (hir : s.ir = t.ir)
    (hacc : s.acc = t.acc) (hb : s.b = t.b) (hout : s.out = t.out) (hhalted : s.halted = t.halted)
    (hcause : s.cause = t.cause) (hmem : s.mem = t.mem) : s = t := by
  cases s; cases t; simp_all

end Sys2Proof.Machine
end

