-- ==== Sys2Proof/Laws/Arithmetic.lean ====
section
/-! SUPPORT. What the arithmetic unit and the execute phase that ADD and SUB share compute. -/

namespace Sys2Proof.Machine

/-- Addition is exact addition modulo 256 (41_load_arithmetic.md R121). -/
theorem aluAdd_toNat (x y : Byte) : (aluAdd x y).toNat = (x.toNat + y.toNat) % 256 := by
  simp only [aluAdd, BitVec.toNat_ofInt]
  omega

/-- Subtraction is exact subtraction modulo 256, over the integers (R122). -/
theorem aluSub_toNat (x y : Byte) : ((aluSub x y).toNat : Int) = ((x.toNat : Int) - y.toNat) % 256 := by
  simp only [aluSub, BitVec.toNat_ofInt]
  omega

/-- The shared execute phase writes `mar`, `b` and `acc`, and nothing else. -/
theorem execAlu_eq (op : Byte → Byte → Byte) (a : Nibble) (s : State) :
    execAlu op a s = { s with mar := a, b := memRead s.mem a, acc := op s.acc (memRead s.mem a) } := rfl

/-- What a list of bytes laid out from address `a` reads as, at every address. -/
theorem Memory.readAt_ofBytes (bytes : List Byte) (a c : Nat) (h : a + bytes.length ≤ Config.memSize) :
    (Memory.ofBytes a bytes).readAt c = if c < a then unlistedByte else (bytes[c - a]?).getD unlistedByte := by
  induction bytes generalizing a with
  | nil => simp [Memory.ofBytes]
  | cons v vs ih =>
    simp only [List.length_cons] at h
    have hwf := Memory.ofBytes_wf vs (a + 1) (by omega)
    rw [Memory.ofBytes, Memory.readAt_writeAt _ _ _ _ hwf.1, ih (a + 1) (by omega)]
    rcases lt_trichotomy c a with hca | rfl | hca
    · rw [if_neg (by omega), if_pos (by omega), if_pos hca]
    · simp
    · rw [if_neg (by omega), if_neg (by omega), if_neg (by omega), show c - a = c - (a + 1) + 1 by omega,
        List.getElem?_cons_succ]

end Sys2Proof.Machine
end

