-- ==== Sys2Proof/Laws/Cycle.lean ====
section
/-! SUPPORT. What each part of the cycle can do, said once: the fetch, the end of the step, the cycle itself. -/

namespace Sys2Proof.Machine

/-- A runnable state has `pc < 16` and is not halted (40_instruction_cycle.md R100). -/
theorem runnable_iff (s : State) : runnable s = true ↔ s.pc.toNat < 16 ∧ s.halted = false := by
  simp only [runnable, Bool.and_eq_true, Bool.not_eq_true', decide_eq_true_eq]
  rfl

/-- The PC overflow halt's condition (R107). -/
theorem pcOverflows_iff (e : State) : pcOverflows e = true ↔ e.halted = false ∧ e.pc.toNat = 16 := by
  simp only [pcOverflows, Bool.and_eq_true, Bool.not_eq_true', decide_eq_true_eq]
  rfl

@[simp] theorem fetch_pc (s : State) : (fetch s).pc = s.pc + 1 := rfl
@[simp] theorem fetch_mar (s : State) : (fetch s).mar = pcAddress s := rfl
@[simp] theorem fetch_ir (s : State) : (fetch s).ir = fetchedByte s := rfl
@[simp] theorem fetch_acc (s : State) : (fetch s).acc = s.acc := rfl
@[simp] theorem fetch_b (s : State) : (fetch s).b = s.b := rfl
@[simp] theorem fetch_out (s : State) : (fetch s).out = s.out := rfl
@[simp] theorem fetch_halted (s : State) : (fetch s).halted = s.halted := rfl
@[simp] theorem fetch_cause (s : State) : (fetch s).cause = s.cause := rfl
@[simp] theorem fetch_mem (s : State) : (fetch s).mem = s.mem := rfl

/-- The address field is the program counter while that is below 16 (10_state.md R21). -/
theorem pcAddress_toNat (s : State) (h : s.pc.toNat < 16) : (pcAddress s).toNat = s.pc.toNat := by
  simp [pcAddress]; omega

/-- Below 16 the increment is exact (40_instruction_cycle.md R102). -/
theorem pc_increment_toNat (s : State) (h : s.pc.toNat < 16) : (s.pc + 1).toNat = s.pc.toNat + 1 := by
  simp [BitVec.toNat_add]; omega

/-- The end of a step either halts with PC_OVERFLOW, at `pc == 16` and not halted, or changes nothing. -/
theorem endOfStep_cases (e : State) :
    (e.halted = false ∧ e.pc.toNat = 16 ∧ endOfStep e = e.halt .pcOverflow) ∨
      (¬(e.halted = false ∧ e.pc.toNat = 16) ∧ endOfStep e = e) := by
  by_cases h : pcOverflows e = true
  · left
    have h' := (pcOverflows_iff e).1 h
    exact ⟨h'.1, h'.2, by simp [endOfStep, h]⟩
  · right
    exact ⟨fun h' => h ((pcOverflows_iff e).2 h'), by simp [endOfStep, h]⟩

@[simp] theorem onNext_next {σ τ : Type} (f : σ → τ) (s : σ) :
    onNext f (Host.Outcome.next s) = .next (f s) := rfl

/-- An outcome carried on answers next exactly from a next. -/
theorem onNext_eq_next {σ τ : Type} (f : σ → τ) (o : Host.Outcome σ Fault Refusal) (t : τ) :
    onNext f o = .next t ↔ ∃ s, o = .next s ∧ f s = t := by
  cases o <;> simp [onNext]

/-- What one cycle can do: nothing, reporting NOT_RUNNABLE; a decode error; or an execute phase that
answered next, and the end of the step. -/
theorem cycle_cases (execute : Instr → State → Host.Outcome State Fault Refusal) (s : State)
    (p : State × StepReport) (h : cycle execute s = .next p) :
    (runnable s = false ∧ p = (s, .notRunnable)) ∨
    (runnable s = true ∧ (∃ r, decode (fetchedByte s) = .error r) ∧ p = finishDecodeError (fetch s)) ∨
    (runnable s = true ∧ ∃ i e, decode (fetchedByte s) = .ok i ∧ execute i (fetch s) = .next e ∧
      p = finishStep i e) := by
  by_cases hr : runnable s = true
  · cases hd : decode (fetchedByte s) with
    | error r =>
      simp only [cycle, hr, if_true, fetch_ir, hd, Host.Outcome.next.injEq] at h
      exact Or.inr (Or.inl ⟨hr, ⟨r, rfl⟩, h.symm⟩)
    | ok i =>
      simp only [cycle, hr, if_true, fetch_ir, hd, onNext_eq_next] at h
      obtain ⟨e, he, hp⟩ := h
      exact Or.inr (Or.inr ⟨hr, i, e, rfl, he, hp.symm⟩)
  · simp only [cycle, hr, Bool.false_eq_true, if_false, Host.Outcome.next.injEq] at h
    exact Or.inl ⟨by simpa using hr, h.symm⟩

/-- A byte placed where the next step fetches is what it fetches, from a runnable state. -/
theorem placeAtFetch_fetches (s : State) (v : Byte) (h : s.mem.wf) :
    runnable (placeAtFetch s v) = true ∧ fetchedByte (placeAtFetch s v) = v := by
  have hmem (r : State) (hr : r.mem.wf) :
      fetchedByte { r with mem := memWrite r.mem (pcAddress r) v } = v := by
    show memRead (memWrite r.mem (pcAddress r) v) (pcAddress r) = v
    rw [memRead_memWrite r.mem _ _ v hr, if_pos rfl]
  by_cases hr : runnable s = true
  · simp only [placeAtFetch, hr, if_true]
    exact ⟨hr, hmem s h⟩
  · simp only [placeAtFetch, hr, Bool.false_eq_true, if_false]
    exact ⟨rfl, hmem { s with pc := 0, halted := false, cause := .none } h⟩

/-- LOAD of an image leaves memory in canonical form (20_memory.md R51). -/
theorem loaded_mem_wf (image : List Nat) (h : imageOk image = true) : (State.loaded image).mem.wf := by
  have hlen : image.length = 16 := by
    simp only [imageOk, Config.memSize, Bool.and_eq_true, beq_iff_eq] at h
    exact h.1
  exact Memory.ofBytes_wf _ 0 (by simp [hlen, Config.memSize])

end Sys2Proof.Machine
end

