-- ==== Sys2Proof/Laws/Runs.lean ====
section
/-! SUPPORT. The equations of runs and sessions, one STEP or one operation at a time. -/

namespace Sys2Proof.Machine

@[simp] theorem runSteps_zero (s : State) : runSteps 0 s = .next s := rfl

/-- A step that answers next goes on with the run. -/
theorem runSteps_succ (k : Nat) (s t : State) (h : step s = .next t) :
    runSteps (k + 1) s = runSteps k t := by
  simp only [runSteps, h]

/-- The runs of the statements are the runs of the host's interface. -/
theorem runSteps_eq_core_run (k : Nat) (s : State) : runSteps k s = Host.Core.run Sys2Proof.core k s := by
  induction k generalizing s with
  | zero => rfl
  | succ k ih =>
    have hcore : Sys2Proof.core.step s = step s := rfl
    cases h : step s with
    | next t => rw [runSteps_succ k s t h, ih t]; simp only [Host.Core.run, hcore, h]; rfl
    | fault r => simp only [runSteps, Host.Core.run, hcore, h]; rfl
    | refused r => simp only [runSteps, Host.Core.run, hcore, h]; rfl

/-- Where no step is taken, every element is kept. -/
theorem sameOrKept_refl {α : Type} (x : State → α) (s t : State) : sameOrKept x s t s t := Or.inr ⟨rfl, rfl⟩

/-- Two stretches of a pair of runs, one after the other, keep an element or leave it the same in both. -/
theorem sameOrKept_trans {α : Type} (x : State → α) {s t s' t' s'' t'' : State}
    (h : sameOrKept x s t s' t') (h' : sameOrKept x s' t' s'' t'') : sameOrKept x s t s'' t'' := by
  rcases h' with h' | ⟨hs, ht⟩
  · exact Or.inl h'
  · rcases h with h | ⟨hs', ht'⟩
    · exact Or.inl (by rw [hs, ht, h])
    · exact Or.inr ⟨hs.trans hs', ht.trans ht'⟩

@[simp] theorem sessionState_nil (e : Engine) : sessionState [] e = .next e := rfl

/-- An operation that is served goes on with the session. -/
theorem sessionState_cons (op : HostOp) (ops : List HostOp) (e e' : Engine) (r : Response)
    (h : serve op e = .next (e', r)) : sessionState (op :: ops) e = sessionState ops e' := by
  simp only [sessionState, session, h]
  cases session ops e' <;> rfl

/-- A session that answers next served its first operation. -/
theorem sessionState_cons_next (op : HostOp) (ops : List HostOp) (e e' : Engine)
    (h : sessionState (op :: ops) e = .next e') :
    ∃ f r, serve op e = .next (f, r) ∧ sessionState ops f = .next e' := by
  cases hs : serve op e with
  | next p =>
    obtain ⟨f, r⟩ := p
    exact ⟨f, r, rfl, by rw [← sessionState_cons op ops e f r hs]; exact h⟩
  | fault r => simp [sessionState, session, hs, onNext] at h
  | refused r => simp [sessionState, session, hs, onNext] at h

end Sys2Proof.Machine
end

