-- ==== Sys2Proof/Laws/HostOps.lean ====
section
/-! SUPPORT. What one host operation can do, and what one write of the assembler can do. -/

namespace Sys2Proof.Machine

/-- What an operation that is served can do: reset the engine, load an image, take one step of a defined
engine, or change nothing. -/
theorem serve_cases (op : HostOp) (e f : Engine) (r : Response) (h : serve op e = .next (f, r)) :
    (op = .reset ∧ f = Engine.ready State.reset) ∨
    (∃ image, op = .load image ∧ imageOk image = true ∧ f = Engine.ready (State.loaded image)) ∨
    (op = .step ∧ e.defined = true ∧ ∃ t, step e.state = .next t ∧ f = Engine.ready t) ∨
    (op = .snapshot ∧ f = e) := by
  cases op with
  | reset =>
    simp only [serve, Host.Outcome.next.injEq, Prod.mk.injEq] at h
    exact Or.inl ⟨rfl, h.1.symm⟩
  | load image =>
    by_cases hi : imageOk image = true
    · simp only [serve, hostLoad, hi, if_true, Host.Outcome.next.injEq, Prod.mk.injEq] at h
      exact Or.inr (Or.inl ⟨image, rfl, hi, h.1.symm⟩)
    · simp [serve, hostLoad, hi] at h
  | step =>
    by_cases hd : e.defined = true
    · simp only [serve, hostStep, hd, if_true, onNext_eq_next, Prod.mk.injEq] at h
      obtain ⟨p, hp, hf, -⟩ := h
      exact Or.inr (Or.inr (Or.inl ⟨rfl, hd, p.1, by simp [step, hp], hf.symm⟩))
    · simp [serve, hostStep, hd] at h
  | snapshot =>
    simp only [serve, Host.Outcome.next.injEq, Prod.mk.injEq] at h
    exact Or.inr (Or.inr (Or.inr ⟨rfl, h.1.symm⟩))

/-- The operand the assembler gives an instruction leaves it in the assembler's form (30_encoding.md R73). -/
theorem asmOperand_assembled (name : Mnemonic) (operand : Option Nat) (x : Nibble)
    (h : asmOperand name operand = .ok x) : (name.instr x).assembled = true := by
  cases name <;> cases operand <;> first | rfl | (cases h; rfl) | cases h

/-- A write of the assembler that succeeds is to a free cell of the 16, and adds that cell alone. -/
theorem put_ok (c c' : AsmState) (a v : Nat) (h : c.put a v = .ok c') :
    a < Config.memSize ∧ c.written.lookup a = none ∧ c' = { c with written := (a, v) :: c.written } := by
  simp only [AsmState.put] at h
  split_ifs at h with h1 h2
  cases h
  exact ⟨by omega, Option.not_isSome_iff_eq_none.1 h2, rfl⟩

end Sys2Proof.Machine
end

