-- ==== Sys2Proof/Laws/PerInstr.lean ====
section
/-! SUPPORT. A law of every instruction's encoding, one lemma for each constructor: the fields of the encoded
byte are the instruction's opcode and operand (30_encoding.md R71). -/

namespace Sys2Proof

/-- The opcode field of a byte made of two nibbles. -/
@[simp] theorem opcodeField_instrByte (o x : Nibble) : opcodeField (instrByte o x) = o := by
  revert o x; decide

/-- The operand field of a byte made of two nibbles. -/
@[simp] theorem operandField_instrByte (o x : Nibble) : operandField (instrByte o x) = x := by
  revert o x; decide

/-- A byte is made of its two fields. -/
theorem instrByte_fields (v : Byte) : instrByte (opcodeField v) (operandField v) = v := by
  revert v; decide

/-- A byte that decodes has the instruction's opcode and operand as its fields. -/
theorem decode_ok_fields (v : Byte) (i : Instr) (h : decode v = .ok i) :
    opcodeOf i.mnemonic = opcodeField v ∧ i.operand = operandField v := by
  unfold decode at h
  split at h
  · rename_i m hm
    cases h
    have hop := List.find?_some hm
    simp only [beq_iff_eq] at hop
    cases m <;> exact ⟨hop, rfl⟩
  · cases h

/-- The encoding of an instruction has its opcode and its operand as fields. -/
def Laws.EncodeFields.Statement (i : Instr) : Prop :=
  opcodeField (encode i) = opcodeOf i.mnemonic ∧ operandField (encode i) = i.operand

theorem Laws.EncodeFields.lda (a : Nibble) : Laws.EncodeFields.Statement (.lda a) :=
  ⟨opcodeField_instrByte _ _, operandField_instrByte _ _⟩

theorem Laws.EncodeFields.add (a : Nibble) : Laws.EncodeFields.Statement (.add a) :=
  ⟨opcodeField_instrByte _ _, operandField_instrByte _ _⟩

theorem Laws.EncodeFields.sub (a : Nibble) : Laws.EncodeFields.Statement (.sub a) :=
  ⟨opcodeField_instrByte _ _, operandField_instrByte _ _⟩

theorem Laws.EncodeFields.out (x : Nibble) : Laws.EncodeFields.Statement (.out x) :=
  ⟨opcodeField_instrByte _ _, operandField_instrByte _ _⟩

theorem Laws.EncodeFields.hlt (x : Nibble) : Laws.EncodeFields.Statement (.hlt x) :=
  ⟨opcodeField_instrByte _ _, operandField_instrByte _ _⟩

end Sys2Proof
end

