-- ==== Sys2Proof/Tests/Slice0.lean ====
section
/-! SUPPORT. Tests of the model against the vectors of spec/95_test_vectors.md, and a witness for the hypotheses of
every statement that has some. -/

namespace Sys2Proof.Tests

open Sys2Proof.Machine

/-- A small state: the given `pc`, `acc` and memory cells, everything else as after RESET. -/
def stateAt (pc : PcWord) (acc : Byte) (cells : Memory) : State :=
  { State.reset with pc := pc, acc := acc, mem := cells }

/-- The state after one STEP, if it answers next. -/
def after (s : State) : Option State :=
  match step s with
  | .next t => some t
  | .fault _ => none
  | .refused _ => none

/-- The report of one STEP, if it answers next. -/
def report (s : State) : Option StepReport :=
  match stepReport s with
  | .next r => some r
  | .fault _ => none
  | .refused _ => none

/-- Scenario A's image (95_test_vectors.md 1.1). -/
def imageA : List Nat := [0x0E, 0x1F, 0xE0, 0xF0, 0, 0, 0, 0, 0, 0, 0, 0, 0, 0, 5, 3]

/-! ## The checks refuse what is ill-formed -/

theorem test_image_of_15_values_refused : imageOk (List.replicate 15 0) = false := by decide
theorem test_image_of_17_values_refused : imageOk (List.replicate 17 0) = false := by decide
theorem test_image_with_256_refused : imageOk (256 :: List.replicate 15 0) = false := by decide
theorem test_image_A_accepted : imageOk imageA = true := by decide
theorem test_out_with_nibble_not_assembled : Instr.assembled (.out 7) = false := by decide
theorem test_hlt_with_nibble_not_assembled : Instr.assembled (.hlt 5) = false := by decide

/-! ## Decode: the words of 95_test_vectors.md 2.1, bit by bit -/

theorem test_decode_lda : decode 0b00001111 = .ok (.lda 15) := rfl
theorem test_decode_add : decode 0b00011111 = .ok (.add 15) := rfl
theorem test_decode_sub : decode 0b00101111 = .ok (.sub 15) := rfl
theorem test_decode_out : decode 0b11100111 = .ok (.out 7) := rfl
theorem test_decode_hlt : decode 0b11110000 = .ok (.hlt 0) := rfl
theorem test_decode_reserved_low : decode 0b00110000 = .error (.reservedOpcode 3) := rfl
theorem test_decode_reserved_high : decode 0b11011111 = .error (.reservedOpcode 13) := rfl
theorem test_table_word_sub : decodeTableWord 8 0x2F = some (.sub 15) := by decide
theorem test_table_word_reserved : decodeTableWord 8 0x7F = none := by decide

/-! ## One step of each instruction: 95_test_vectors.md 2.2 to 2.8 -/

/-- L5: LDA 1 at address 15. -/
theorem test_step_lda_at_15 :
    (after (stateAt 15 0 [(1, 0x1F), (15, 0x01)])).map (fun t => (t.pc, t.mar, t.acc, t.halted, t.cause)) =
      some (16, 1, 0x1F, true, .pcOverflow) := by decide

/-- F2: LDA C at address 7. -/
theorem test_step_lda_at_7 :
    (after (stateAt 7 0 [(7, 0x0C), (12, 0x99)])).map (fun t => (t.pc, t.mar, t.ir, t.acc, t.halted)) =
      some (8, 0xC, 0x0C, 0x99, false) := by decide

/-- A3: 200 + 100 wraps to 44. -/
theorem test_step_add_wraps :
    (after (stateAt 0 200 [(0, 0x1F), (15, 100)])).map (fun t => (t.mar, t.acc, t.b, t.out, t.cause)) =
      some (15, 44, 100, 0, .none) := by decide

/-- F4: ADD F at address 15 reads itself. -/
theorem test_step_add_itself_at_15 :
    (after (stateAt 15 1 [(15, 0x1F)])).map (fun t => (t.pc, t.mar, t.ir, t.acc, t.b, t.cause)) =
      some (16, 15, 0x1F, 0x20, 0x1F, .pcOverflow) := by decide

/-- S6: 127 - 255 wraps to 128. -/
theorem test_step_sub_wraps :
    (after (stateAt 0 127 [(0, 0x2F), (15, 255)])).map (fun t => (t.mar, t.acc, t.b)) =
      some (15, 128, 255) := by decide

/-- S9: SUB 2 at address 2 reads itself. -/
theorem test_step_sub_itself :
    (after (stateAt 2 0x30 [(2, 0x22)])).map (fun t => (t.pc, t.acc, t.b)) = some (3, 0x0E, 0x22) := by decide

/-- O2: byte 0xE7 at address 6: the nibble is ignored, `mar` keeps the fetch address. -/
theorem test_step_out_ignores_nibble :
    (after (stateAt 6 0xA5 [(6, 0xE7)])).map (fun t => (t.pc, t.mar, t.out, t.halted)) =
      some (7, 6, 0xA5, false) := by decide

/-- O4: OUT at address 15. -/
theorem test_step_out_at_15 :
    (after (stateAt 15 0x42 [(15, 0xEF)])).map (fun t => (t.pc, t.mar, t.out, t.cause)) =
      some (16, 15, 0x42, .pcOverflow) := by decide

/-- H1, H2: HLT at address 3. -/
theorem test_step_hlt :
    (after (stateAt 3 9 [(3, 0xFF)])).map (fun t => (t.pc, t.mar, t.ir, t.acc, t.halted, t.cause)) =
      some (4, 3, 0xFF, 9, true, .hlt) := by decide

/-- H3: HLT at address 15 is HALT_HLT, not HALT_PC_OVERFLOW. -/
theorem test_step_hlt_at_15 :
    (after (stateAt 15 0 [(15, 0xF0)])).map (fun t => (t.pc, t.cause)) = some (16, .hlt) := by decide

/-- X3: a reserved opcode at address 15, with its report. -/
theorem test_step_decode_error_at_15 :
    (after (stateAt 15 7 [(15, 0x3C)])).map (fun t => (t.pc, t.mar, t.ir, t.acc, t.halted, t.cause)) =
      some (16, 15, 0x3C, 7, true, .decodeError) := by decide

theorem test_report_decode_error_at_15 :
    report (stateAt 15 7 [(15, 0x3C)]) = (after (stateAt 15 7 [(15, 0x3C)])).map
      (fun t => StepReport.decodeError 3 15 true t.snapshot) := by decide

/-- F9: `pc` past range without `halted` is not runnable. -/
theorem test_report_past_range : report (stateAt 16 0 []) = some .notRunnable := by decide

/-! ## The interface -/

theorem test_fetch_word_runs_first :
    (after (State.reset.withFetchWord 8 0xF3)).map (fun t => (t.pc, t.cause)) = some (1, .hlt) := by decide

theorem test_fetch_word_changes_one_cell :
    State.reset.withFetchWord 8 0x1F = { State.reset with mem := [(0, 0x1F)] } := by decide

theorem test_memory_write_of_zero_removes_the_cell : memWrite [(3, 7)] 3 0 = [] := by decide

theorem test_lights_of_250 :
    (List.finRange 8).filter (fun i => ({ State.reset with out := 250 } : State).light i) = [1, 3, 4, 5, 6, 7] := by
  decide

/-- Scenario A's text assembles to its image. -/
theorem test_assemble_scenario_A :
    assemble [some (.instr .LDA (some 14)), some (.instr .ADD (some 15)), none, some (.instr .OUT none),
      some (.instr .HLT none), some (.org 14), some (.db 5), some (.db 3)] = .image imageA := by decide

/-- Scenario E: an unsupported mnemonic fails on its own line. -/
theorem test_assemble_scenario_E :
    assemble [none, some (.other "JMP")] = .stopped 2 (.failed .unknownMnemonic) := by decide

/-! ## Witnesses: states and operands that meet the hypotheses of the statements, at the boundaries of each clause -/

theorem witness_runnable_bounds :
    (stateAt 0 0 []).pc.toNat < 16 ∧ (stateAt 0 0 []).halted = false ∧
    (stateAt 15 0 []).pc.toNat < 16 ∧ (stateAt 15 0 []).halted = false := by decide

theorem witness_StepRunsTheDecodedInstruction :
    runnable (stateAt 15 0 [(15, 0x25)]) = true ∧
    decode (memRead (stateAt 15 0 [(15, 0x25)]).mem (pcAddress (stateAt 15 0 [(15, 0x25)]))) = .ok (.sub 5) :=
  ⟨by decide, rfl⟩

/-- The overflow clause at address 15, and the other at address 14 and for HLT at address 15. -/
theorem witness_StepPastAddressFifteen_execute :
    (∃ e, runnable (stateAt 15 9 [(15, 0xE0)]) = true ∧ decode (fetchedByte (stateAt 15 9 [(15, 0xE0)])) = .ok (.out 0) ∧
      exec (.out 0) (fetch (stateAt 15 9 [(15, 0xE0)])) = .next e ∧ e.halted = false ∧ e.pc.toNat = 16) ∧
    (∃ e, runnable (stateAt 14 9 [(14, 0xE0)]) = true ∧ decode (fetchedByte (stateAt 14 9 [(14, 0xE0)])) = .ok (.out 0) ∧
      exec (.out 0) (fetch (stateAt 14 9 [(14, 0xE0)])) = .next e ∧ ¬(e.halted = false ∧ e.pc.toNat = 16)) ∧
    (∃ e, runnable (stateAt 15 9 [(15, 0xF0)]) = true ∧ decode (fetchedByte (stateAt 15 9 [(15, 0xF0)])) = .ok (.hlt 0) ∧
      exec (.hlt 0) (fetch (stateAt 15 9 [(15, 0xF0)])) = .next e ∧ ¬(e.halted = false ∧ e.pc.toNat = 16)) :=
  ⟨⟨_, by decide, rfl, rfl, by decide, by decide⟩, ⟨_, by decide, rfl, rfl, by decide⟩,
    ⟨_, by decide, rfl, rfl, by decide⟩⟩

theorem witness_StepPastAddressFifteen_decodeError :
    runnable (stateAt 15 0 [(15, 0x3C)]) = true ∧
    decode (fetchedByte (stateAt 15 0 [(15, 0x3C)])) = .error (.reservedOpcode 3) := ⟨by decide, rfl⟩

/-- Halted, past range without halted, and runnable at address 15; the reset state meets the invariant. -/
theorem witness_StepNotRunnable :
    ¬((stateAt 16 0 []).pc.toNat < 16 ∧ (stateAt 16 0 []).halted = false) ∧
    ¬(((stateAt 4 0 []).halt .hlt).pc.toNat < 16 ∧ ((stateAt 4 0 []).halt .hlt).halted = false) ∧
    State.reset.Inv := by decide

theorem witness_StepLda :
    (stateAt 0 0 [(0, 0x0E)]).pc.toNat < 16 ∧ (stateAt 0 0 [(0, 0x0E)]).halted = false ∧
    fetchedByte (stateAt 0 0 [(0, 0x0E)]) = 0b0000#4 ++ 0xE#4 ∧
    (stateAt 15 0 [(15, 0x01)]).pc.toNat < 16 ∧ (stateAt 15 0 [(15, 0x01)]).halted = false ∧
    fetchedByte (stateAt 15 0 [(15, 0x01)]) = 0b0000#4 ++ 0x1#4 := by decide

theorem witness_StepAdd :
    (stateAt 0 0 [(0, 0x1F)]).pc.toNat < 16 ∧ (stateAt 0 0 [(0, 0x1F)]).halted = false ∧
    fetchedByte (stateAt 0 0 [(0, 0x1F)]) = 0b0001#4 ++ 0xF#4 ∧
    (stateAt 15 0 [(15, 0x10)]).pc.toNat < 16 ∧ (stateAt 15 0 [(15, 0x10)]).halted = false ∧
    fetchedByte (stateAt 15 0 [(15, 0x10)]) = 0b0001#4 ++ 0x0#4 := by decide

theorem witness_StepSub :
    (stateAt 0 0 [(0, 0x2F)]).pc.toNat < 16 ∧ (stateAt 0 0 [(0, 0x2F)]).halted = false ∧
    fetchedByte (stateAt 0 0 [(0, 0x2F)]) = 0b0010#4 ++ 0xF#4 ∧
    (stateAt 15 0 [(15, 0x20)]).pc.toNat < 16 ∧ (stateAt 15 0 [(15, 0x20)]).halted = false ∧
    fetchedByte (stateAt 15 0 [(15, 0x20)]) = 0b0010#4 ++ 0x0#4 := by decide

theorem witness_StepOut :
    (stateAt 0 0 [(0, 0xE0)]).pc.toNat < 16 ∧ (stateAt 0 0 [(0, 0xE0)]).halted = false ∧
    fetchedByte (stateAt 0 0 [(0, 0xE0)]) = 0b1110#4 ++ 0x0#4 ∧
    (stateAt 15 0 [(15, 0xEF)]).pc.toNat < 16 ∧ (stateAt 15 0 [(15, 0xEF)]).halted = false ∧
    fetchedByte (stateAt 15 0 [(15, 0xEF)]) = 0b1110#4 ++ 0xF#4 := by decide

theorem witness_StepHlt :
    (stateAt 0 0 [(0, 0xF0)]).pc.toNat < 16 ∧ (stateAt 0 0 [(0, 0xF0)]).halted = false ∧
    fetchedByte (stateAt 0 0 [(0, 0xF0)]) = 0b1111#4 ++ 0x0#4 ∧
    (stateAt 15 0 [(15, 0xFF)]).pc.toNat < 16 ∧ (stateAt 15 0 [(15, 0xFF)]).halted = false ∧
    fetchedByte (stateAt 15 0 [(15, 0xFF)]) = 0b1111#4 ++ 0xF#4 := by decide

/-- The lowest and the highest reserved byte, at the lowest and the highest address. -/
theorem witness_StepDecodeError :
    (stateAt 0 0 [(0, 0x30)]).pc.toNat < 16 ∧ (stateAt 0 0 [(0, 0x30)]).halted = false ∧
    0x30 ≤ (fetchedByte (stateAt 0 0 [(0, 0x30)])).toNat ∧ (fetchedByte (stateAt 0 0 [(0, 0x30)])).toNat ≤ 0xDF ∧
    (stateAt 15 0 [(15, 0xDF)]).pc.toNat < 16 ∧ (stateAt 15 0 [(15, 0xDF)]).halted = false ∧
    0x30 ≤ (fetchedByte (stateAt 15 0 [(15, 0xDF)])).toNat ∧ (fetchedByte (stateAt 15 0 [(15, 0xDF)])).toNat ≤ 0xDF := by decide

/-- The bytes beside the reserved range. -/
theorem witness_not_DecodeError :
    (fetchedByte (stateAt 0 0 [(0, 0x2F)])).toNat < 0x30 ∧ 0xDF < (fetchedByte (stateAt 0 0 [(0, 0xE0)])).toNat := by
  decide

/-- A state of the invariant for each of the five outcomes. -/
theorem witness_outcome_executed :
    (stateAt 14 0 [(14, 0xE0)]).Inv ∧ (report (stateAt 14 0 [(14, 0xE0)])).map StepReport.endsRun = some false := by decide

theorem witness_outcome_haltHlt :
    (stateAt 15 0 [(15, 0xF0)]).Inv ∧ (after (stateAt 15 0 [(15, 0xF0)])).map State.cause = some .hlt := by decide

theorem witness_outcome_haltPcOverflow :
    (stateAt 15 0 [(15, 0xE0)]).Inv ∧ (after (stateAt 15 0 [(15, 0xE0)])).map State.cause = some .pcOverflow := by decide

theorem witness_outcome_decodeError :
    (stateAt 15 0 [(15, 0x30)]).Inv ∧ (after (stateAt 15 0 [(15, 0x30)])).map State.cause = some .decodeError := by decide

theorem witness_outcome_notRunnable :
    ((stateAt 16 0 []).halt .pcOverflow).Inv ∧ report ((stateAt 16 0 []).halt .pcOverflow) = some .notRunnable := by decide

/-- A runnable state for each clause: bytes 0x30, 0x0F and 0xDF keep `acc`, `b` and `out`. -/
theorem witness_EachRegister :
    runnable (stateAt 0 0 [(0, 0x30)]) = true ∧ (fetchedByte (stateAt 0 0 [(0, 0x30)])).toNat / 16 ∉ [0, 1, 2] ∧
    runnable (stateAt 0 0 [(0, 0x0F)]) = true ∧ (fetchedByte (stateAt 0 0 [(0, 0x0F)])).toNat / 16 ∉ [1, 2] ∧
    runnable (stateAt 0 0 [(0, 0xDF)]) = true ∧ (fetchedByte (stateAt 0 0 [(0, 0xDF)])).toNat / 16 ≠ 14 := by decide

theorem witness_EveryStepKeepsTheEngineInvariant :
    (stateAt 15 0 [(15, 0xE0)]).Inv ∧ ∃ t, step (stateAt 15 0 [(15, 0xE0)]) = .next t := ⟨by decide, _, rfl⟩

/-- The hypotheses about images are met by scenario A's. -/
theorem witness_image : imageOk imageA = true := by decide

/-- A session from power-on that makes the engine defined, and one that does not. -/
theorem witness_sessions :
    (∃ e, sessionState [.load imageA, .step, .snapshot] Engine.powerOn = .next e ∧ e.defined = true) ∧
    (∃ e, sessionState [.snapshot] Engine.powerOn = .next e ∧ e.defined = false) :=
  ⟨⟨_, rfl, rfl⟩, ⟨_, rfl, rfl⟩⟩

/-- A run that has not halted yet, for the clause on its addresses. -/
theorem witness_run_goes_on :
    State.reset.pc.toNat < 16 ∧ State.reset.halted = false ∧
    ∃ t, runSteps 1 State.reset = .next t ∧ t.halted = false := ⟨by decide, rfl, _, rfl, rfl⟩

theorem witness_HaltedEngine :
    ((stateAt 4 0 []).halt .hlt).halted = true ∧
    ∀ op ∈ [HostOp.step, .snapshot], op = .step ∨ op = .snapshot := by decide

/-- The other state of a pair that agrees with `stateAt 15 1 [(15, v)]` and differs in `mar`, `ir`, `b`, `out` and
`cause`. -/
def agreeing (v : Byte) : State :=
  { pc := 15, mar := 9, ir := 8, acc := 1, b := 7, out := 6, halted := false, cause := .hlt, mem := [(15, v)] }

/-- Runnable states that agree, differ, and fetch OUT, ADD, SUB at address 15, where the step halts. -/
theorem witness_LaterStepsDepend :
    State.agree (stateAt 15 1 [(15, 0xEF)]) (agreeing 0xEF) ∧ runnable (stateAt 15 1 [(15, 0xEF)]) = true ∧
    stateAt 15 1 [(15, 0xEF)] ≠ agreeing 0xEF ∧
    (fetchedByte (stateAt 15 1 [(15, 0xEF)])).toNat / 16 = 14 ∧
    (after (stateAt 15 1 [(15, 0xEF)])).map State.halted = some true := by decide

theorem witness_LaterStepsDepend_b :
    State.agree (stateAt 15 1 [(15, 0x1F)]) (agreeing 0x1F) ∧ runnable (stateAt 15 1 [(15, 0x1F)]) = true ∧
    (fetchedByte (stateAt 15 1 [(15, 0x1F)])).toNat / 16 ∈ [1, 2] ∧
    State.agree (stateAt 15 1 [(15, 0x20)]) (agreeing 0x20) ∧ runnable (stateAt 15 1 [(15, 0x20)]) = true ∧
    (fetchedByte (stateAt 15 1 [(15, 0x20)])).toNat / 16 ∈ [1, 2] := by decide

/-- The bytes at the ends of OUT's and HLT's ranges, and two bytes of one high nibble. -/
theorem witness_byte_ranges :
    0xE0 ≤ (0xE0 : Byte).toNat ∧ (0xEF : Byte).toNat ≤ 0xEF ∧ 0xF0 ≤ (0xF0 : Byte).toNat ∧
    0xF0 ≤ (0xFF : Byte).toNat ∧ (0xE0 : Byte).toNat / 16 = (0xEF : Byte).toNat / 16 := by decide

theorem witness_decode_ok : decode 0b00101111 = .ok (.sub 15) := rfl

theorem witness_DisassemblyReturnsTheAssembledStatement :
    asmOperand .LDA (some 15) = .ok 15 ∧ asmOperand .OUT none = .ok 0 ∧ asmOperand .HLT none = .ok 0 :=
  ⟨rfl, rfl, rfl⟩

/-- Both pointers at the last cell, which is free, with the largest legal operand and value. -/
theorem witness_AssemblyStatementsHaveTheirImageEffect :
    asmOperand .LDA (some 15) = .ok 15 ∧ (AsmState.mk 15 (some 15) []).ip < 16 ∧
    (AsmState.mk 15 (some 15) []).written.lookup 15 = none ∧ (AsmState.mk 15 (some 15) []).dp = some 15 ∧
    (15 : Nat) < 16 ∧ (255 : Nat) < 256 := ⟨rfl, by decide, rfl, rfl, by decide, by decide⟩

/-- The pointers one past the last cell with a legal statement, the lowest illegal operand and value, and a
data pointer that no ORG has set. -/
theorem witness_AssemblyFailsOnEachListedError :
    asmOperand .LDA (some 15) = .ok 15 ∧ 16 ≤ (AsmState.mk 16 (some 16) []).ip ∧
    (AsmState.mk 16 (some 16) []).dp = some 16 ∧ (255 : Nat) < 256 ∧ Mnemonic.LDA ≠ .OUT ∧ Mnemonic.LDA ≠ .HLT ∧
    (AsmState.mk 0 none []).dp = none ∧ (AsmState.mk 0 (some 0) []).dp = some 0 ∧ (256 : Nat) ≤ 256 :=
  ⟨rfl, by decide, rfl, by decide, by decide, by decide, rfl, rfl, by decide⟩

/-- A loaded history, for the statement that RESET and LOAD forget it. -/
theorem witness_LoadedStateForgetsTheHistory :
    imageOk imageA = true ∧ ∃ e, sessionState [.load imageA, .step] Engine.powerOn = .next e := ⟨by decide, _, rfl⟩

/-- 15 values, and a value of 256, are no image. -/
theorem witness_no_image :
    ¬((List.replicate 15 0).length = 16 ∧ ∀ v ∈ List.replicate 15 0, v < 256) ∧
    ¬((256 :: List.replicate 15 0).length = 16 ∧ ∀ v ∈ 256 :: List.replicate 15 0, v < 256) := by decide

end Sys2Proof.Tests
end

section
/-! PROOFS. What one execute phase and one STEP do, said once: the state each leaves, and what it leaves unchanged. -/

namespace Sys2Proof.Machine

/-- The state that the execute phase of an instruction leaves. `exec_eq_executed` ties it to `exec`. -/
def executed : Instr → State → State
  | .lda a, s => (s.setMar a).setAcc (memRead s.mem a)
  | .add a, s => execAlu aluAdd a s
  | .sub a, s => execAlu aluSub a s
  | .out _, s => s.setOut s.acc
  | .hlt _, s => s.halt .hlt

/-- Every execute phase completes (40_instruction_cycle.md R106). -/
theorem exec_eq_executed (i : Instr) (s : State) : exec i s = .next (executed i s) := by
  cases i <;> rfl

@[simp] theorem executed_pc (i : Instr) (s : State) : (executed i s).pc = s.pc := by cases i <;> rfl
@[simp] theorem executed_ir (i : Instr) (s : State) : (executed i s).ir = s.ir := by cases i <;> rfl
@[simp] theorem executed_mem (i : Instr) (s : State) : (executed i s).mem = s.mem := by cases i <;> rfl

/-- Only HLT writes `halted` and `cause` in an execute phase (10_state.md R29, R30). -/
theorem executed_haltState_cases (i : Instr) (s : State) :
    (i.mnemonic ≠ .HLT ∧ (executed i s).halted = s.halted ∧ (executed i s).cause = s.cause) ∨
      (i.mnemonic = .HLT ∧ (executed i s).halted = true ∧ (executed i s).cause = .hlt) := by
  cases i with
  | hlt x => exact Or.inr ⟨rfl, rfl, rfl⟩
  | lda a | add a | sub a | out x => exact Or.inl ⟨nofun, rfl, rfl⟩

/-- Only LDA, ADD and SUB write `acc` in an execute phase (R25). -/
theorem executed_acc_of_opcode (i : Instr) (s : State)
    (h : (opcodeOf i.mnemonic).toNat ∉ [0, 1, 2]) : (executed i s).acc = s.acc := by
  cases i with
  | out x | hlt x => rfl
  | lda a | add a | sub a => exact absurd (by simp [Instr.mnemonic, opcodeOf]) h

/-- Only ADD and SUB write `b` in an execute phase (R26). -/
theorem executed_b_of_opcode (i : Instr) (s : State)
    (h : (opcodeOf i.mnemonic).toNat ∉ [1, 2]) : (executed i s).b = s.b := by
  cases i with
  | lda a | out x | hlt x => rfl
  | add a | sub a => exact absurd (by simp [Instr.mnemonic, opcodeOf]) h

/-- Only OUT writes `out` in an execute phase (R27). -/
theorem executed_out_of_opcode (i : Instr) (s : State)
    (h : (opcodeOf i.mnemonic).toNat ≠ 14) : (executed i s).out = s.out := by
  cases i with
  | lda a | add a | sub a | hlt x => rfl
  | out x => exact absurd rfl h

/-- An execute phase writes `mar` with the operand for LDA, ADD and SUB, and leaves it for OUT and HLT (R23). -/
theorem executed_mar (i : Instr) (s : State) :
    (executed i s).mar = if (opcodeOf i.mnemonic).toNat ∈ [0, 1, 2] then i.operand else s.mar := by
  cases i <;> rfl

@[simp] theorem endOfStep_pc (e : State) : (endOfStep e).pc = e.pc := by
  unfold endOfStep; split <;> rfl
@[simp] theorem endOfStep_mar (e : State) : (endOfStep e).mar = e.mar := by
  unfold endOfStep; split <;> rfl
@[simp] theorem endOfStep_ir (e : State) : (endOfStep e).ir = e.ir := by
  unfold endOfStep; split <;> rfl
@[simp] theorem endOfStep_acc (e : State) : (endOfStep e).acc = e.acc := by
  unfold endOfStep; split <;> rfl
@[simp] theorem endOfStep_b (e : State) : (endOfStep e).b = e.b := by
  unfold endOfStep; split <;> rfl
@[simp] theorem endOfStep_out (e : State) : (endOfStep e).out = e.out := by
  unfold endOfStep; split <;> rfl
@[simp] theorem endOfStep_mem (e : State) : (endOfStep e).mem = e.mem := by
  unfold endOfStep; split <;> rfl

/-- STEP of a state that is not runnable changes nothing (60_exceptions.md R161). -/
theorem step_of_not_runnable (s : State) (h : runnable s = false) : step s = .next s := by
  simp [step, cycle, h]

/-- STEP of a byte that is no instruction halts after the fetch (R160). -/
theorem step_of_decode_error (s : State) (r : DecodeRefusal) (h : runnable s = true)
    (hd : decode (fetchedByte s) = .error r) : step s = .next ((fetch s).halt .decodeError) := by
  simp only [step, cycle, h, if_true, fetch_ir, hd]
  rfl

/-- STEP of an instruction is its execute phase between the fetch and the end of the step
(40_instruction_cycle.md R108). -/
theorem step_of_decode_ok (s : State) (i : Instr) (h : runnable s = true)
    (hd : decode (fetchedByte s) = .ok i) : step s = .next (endOfStep (executed i (fetch s))) := by
  simp only [step, cycle, h, if_true, fetch_ir, hd, exec_eq_executed, onNext_next]
  rfl

/-- What STEP does, from every state: nothing, a decode error, or one instruction. -/
theorem step_cases (s : State) :
    (runnable s = false ∧ step s = .next s) ∨
    (runnable s = true ∧ (∃ r, decode (fetchedByte s) = .error r) ∧
      step s = .next ((fetch s).halt .decodeError)) ∨
    (runnable s = true ∧ ∃ i, decode (fetchedByte s) = .ok i ∧
      step s = .next (endOfStep (executed i (fetch s)))) := by
  cases hr : runnable s with
  | false => exact Or.inl ⟨rfl, step_of_not_runnable s hr⟩
  | true =>
    cases hd : decode (fetchedByte s) with
    | error r => exact Or.inr (Or.inl ⟨rfl, ⟨r, rfl⟩, step_of_decode_error s r hr hd⟩)
    | ok i => exact Or.inr (Or.inr ⟨rfl, i, rfl, step_of_decode_ok s i hr hd⟩)

end Sys2Proof.Machine
end

section
/-! PROOFS. The invariant of the engine: each part of a STEP keeps what it needs of it. -/

namespace Sys2Proof.Machine

/-- What holds inside a step that started in the invariant, between the fetch and the end-of-step check: `pc` may be
16 with `halted` still 0, and PC_OVERFLOW has not been raised yet. -/
structure State.MidStep (s : State) : Prop where
  pc_le : s.pc.toNat ≤ 16
  cause_none_iff : s.cause = .none ↔ s.halted = false
  cause_ne_pcOverflow : s.cause ≠ .pcOverflow
  mem_wf : s.mem.wf

/-- The fetch of a runnable state of the invariant. -/
theorem fetch_midStep (s : State) (h : s.Inv) (hr : runnable s = true) : (fetch s).MidStep := by
  obtain ⟨-, -, hcause, -, hmem⟩ := h
  obtain ⟨hpc, hhalted⟩ := (runnable_iff s).1 hr
  have hnone : s.cause = .none := hcause.2 hhalted
  exact {
    pc_le := by rw [fetch_pc, pc_increment_toNat s hpc]; omega
    cause_none_iff := hcause
    cause_ne_pcOverflow := by simp [hnone]
    mem_wf := hmem }

theorem executed_midStep (i : Instr) (s : State) (h : s.MidStep) : (executed i s).MidStep := by
  have hpc : (executed i s).pc.toNat ≤ 16 := by rw [executed_pc]; exact h.pc_le
  have hmem : (executed i s).mem.wf := by rw [executed_mem]; exact h.mem_wf
  rcases executed_haltState_cases i s with ⟨-, hhalted, hcause⟩ | ⟨-, hhalted, hcause⟩
  · exact ⟨hpc, by rw [hhalted, hcause]; exact h.cause_none_iff,
      by rw [hcause]; exact h.cause_ne_pcOverflow, hmem⟩
  · exact ⟨hpc, by simp [hhalted, hcause], by simp [hcause], hmem⟩

/-- The end-of-step check restores what `MidStep` leaves open of the invariant (40_instruction_cycle.md R107). -/
theorem endOfStep_inv (e : State) (h : e.MidStep) : (endOfStep e).Inv := by
  rcases endOfStep_cases e with ⟨-, hpc, heq⟩ | ⟨hno, heq⟩
  · rw [heq]
    exact ⟨h.pc_le, fun _ => rfl, by simp, fun _ => hpc, h.mem_wf⟩
  · rw [heq]
    have hhalted : e.pc.toNat = 16 → e.halted = true := fun hpc => by
      by_contra hne
      exact hno ⟨by simpa using hne, hpc⟩
    exact ⟨h.pc_le, hhalted, h.cause_none_iff, fun hc => absurd hc h.cause_ne_pcOverflow, h.mem_wf⟩

theorem haltDecodeError_inv (f : State) (h : f.MidStep) : (f.halt .decodeError).Inv :=
  ⟨h.pc_le, fun _ => rfl, by simp, by simp, h.mem_wf⟩

theorem step_inv (s t : State) (h : s.Inv) (hstep : step s = .next t) : t.Inv := by
  rcases step_cases s with ⟨-, heq⟩ | ⟨hr, -, heq⟩ | ⟨hr, i, -, heq⟩ <;>
    cases heq.symm.trans hstep
  · exact h
  · exact haltDecodeError_inv _ (fetch_midStep s h hr)
  · exact endOfStep_inv _ (executed_midStep i _ (fetch_midStep s h hr))

theorem reset_inv : State.reset.Inv := by decide

/-- Only the memory clause depends on the image, and that one on its length. -/
theorem loaded_inv (image : List Nat) (h : imageOk image = true) : (State.loaded image).Inv :=
  ⟨by simp, by simp, by simp, by simp, loaded_mem_wf image h⟩

/-- The engine's invariant as the host sees it: before the first RESET or LOAD nothing is known
(70_reset_and_hazards.md R196). -/
def Engine.Inv (e : Engine) : Prop := e.defined = true → e.state.Inv

theorem powerOn_inv : Engine.powerOn.Inv := nofun

theorem serve_inv (op : HostOp) (e f : Engine) (r : Response) (h : e.Inv)
    (hserve : serve op e = .next (f, r)) : f.Inv := by
  rcases serve_cases op e f r hserve with
    ⟨-, rfl⟩ | ⟨image, -, himage, rfl⟩ | ⟨-, hdefined, t, hstep, rfl⟩ | ⟨-, rfl⟩
  · exact fun _ => reset_inv
  · exact fun _ => loaded_inv image himage
  · exact fun _ => step_inv e.state t (h hdefined) hstep
  · exact h

/-- What every served operation keeps, every session keeps. -/
theorem sessionState_keeps (P : Engine → Prop)
    (hserve : ∀ op e f r, P e → serve op e = .next (f, r) → P f) (ops : List HostOp) (e e' : Engine)
    (he : P e) (h : sessionState ops e = .next e') : P e' := by
  induction ops generalizing e with
  | nil =>
    cases h
    exact he
  | cons op ops ih =>
    obtain ⟨f, r, hop, hrest⟩ := sessionState_cons_next op ops e e' h
    exact ih f (hserve op e f r he hop) hrest

/-- Settles O22: the fetch, the execute phase and the end of the step each keep their part of the invariant. -/
theorem everyStepKeepsTheEngineInvariant : Obligations.EveryStepKeepsTheEngineInvariant :=
  step_inv

/-- Settles O23. -/
theorem resetAndLoadMeetTheEngineInvariant : Obligations.ResetAndLoadMeetTheEngineInvariant :=
  ⟨reset_inv, loaded_inv⟩

/-- Settles O24, by induction on the session. -/
theorem everySessionKeepsTheEngineInvariant : Obligations.EverySessionKeepsTheEngineInvariant :=
  fun ops e h => sessionState_keeps Engine.Inv serve_inv ops Engine.powerOn e powerOn_inv h

end Sys2Proof.Machine
end

section
/-! PROOFS. Who writes each register, by the nibbles of the fetched byte. -/

namespace Sys2Proof

theorem opcodeField_toNat (v : Byte) : (opcodeField v).toNat = v.toNat / 16 := by
  simp only [opcodeField, BitVec.extractLsb'_toNat, Nat.shiftRight_eq_div_pow]
  omega

theorem operandField_toNat (v : Byte) : (operandField v).toNat = v.toNat % 16 := by
  simp [operandField, BitVec.extractLsb'_toNat]

/-- The nibbles of a byte that decodes are the instruction's opcode and operand (30_encoding.md R71). -/
theorem decode_ok_nibbles (v : Byte) (i : Instr) (h : decode v = .ok i) :
    (opcodeOf i.mnemonic).toNat = v.toNat / 16 ∧ i.operand.toNat = v.toNat % 16 := by
  obtain ⟨hop, hx⟩ := decode_ok_fields v i h
  exact ⟨by rw [hop, opcodeField_toNat], by rw [hx, operandField_toNat]⟩

/-- A byte that is a decode error has the opcode of no instruction (R75). -/
theorem decode_error_opcode_ne (v : Byte) (r : DecodeRefusal) (h : decode v = .error r) (m : Mnemonic) :
    (opcodeOf m).toNat ≠ v.toNat / 16 := by
  unfold decode at h
  split at h
  · cases h
  · next hnone =>
    have hm := List.find?_eq_none.1 hnone m (by cases m <;> decide)
    rw [← opcodeField_toNat, ne_eq, BitVec.toNat_inj]
    simpa using hm

/-- The opcodes of LDA, ADD and SUB are no decode errors. -/
theorem decode_error_not_addressed (v : Byte) (r : DecodeRefusal) (h : decode v = .error r) :
    v.toNat / 16 ∉ [0, 1, 2] := by
  have hlda : 0 ≠ v.toNat / 16 := decode_error_opcode_ne v r h .LDA
  have hadd : 1 ≠ v.toNat / 16 := decode_error_opcode_ne v r h .ADD
  have hsub : 2 ≠ v.toNat / 16 := decode_error_opcode_ne v r h .SUB
  simp only [List.mem_cons, List.not_mem_nil, or_false]
  omega

namespace Machine

/-- Settles O19, by what the byte decodes to: a decode error writes the fetch registers alone, an instruction what
its execute phase writes. -/
theorem eachRegisterIsWrittenByItsInstructionsOnly :
    Obligations.EachRegisterIsWrittenByItsInstructionsOnly := by
  intro s hr
  have hfetch : (pcAddress s).toNat = s.pc.toNat := pcAddress_toNat s ((runnable_iff s).1 hr).1
  cases hd : decode (fetchedByte s) with
  | error r =>
    have hmar : (fetchedByte s).toNat / 16 ∉ [0, 1, 2] := decode_error_not_addressed _ r hd
    exact ⟨_, step_of_decode_error s r hr hd, fun _ => rfl, fun _ => rfl, fun _ => rfl,
      by rw [if_neg hmar]; exact hfetch, rfl⟩
  | ok i =>
    obtain ⟨hop, hx⟩ := decode_ok_nibbles _ i hd
    refine ⟨_, step_of_decode_ok s i hr hd, ?_⟩
    rw [← hop, ← hx, endOfStep_acc, endOfStep_b, endOfStep_out, endOfStep_mar, endOfStep_ir]
    refine ⟨executed_acc_of_opcode i (fetch s), executed_b_of_opcode i (fetch s),
      executed_out_of_opcode i (fetch s), ?_, executed_ir i (fetch s)⟩
    rw [executed_mar, apply_ite BitVec.toNat, fetch_mar, hfetch]

end Machine
end Sys2Proof
end

section
/-! PROOFS. What RESET, LOAD and SNAPSHOT give. -/

namespace Sys2Proof

/-- A memory image is 16 values in 0..255 (70_reset_and_hazards.md R193). -/
theorem imageOk_iff (image : List Nat) :
    imageOk image = true ↔ image.length = 16 ∧ ∀ v ∈ image, v < 256 := by
  simp [imageOk, Config.memSize]

namespace Machine

theorem serve_reset (e : Engine) : serve .reset e = .next (Engine.ready State.reset, .done) := rfl

theorem serve_load (e : Engine) (image : List Nat) (h : imageOk image = true) :
    serve (.load image) e = .next (Engine.ready (State.loaded image), .done) := by
  simp only [serve, hostLoad, h, if_true]

theorem serve_snapshot (e : Engine) : serve .snapshot e = .next (e, .observed e.state.snapshot) := rfl

/-- After LOAD cell `a` holds `image[a]` (R192). -/
theorem memRead_loaded (image : List Nat) (h : imageOk image = true) (a : Nibble) :
    image[a.toNat]? = some (memRead (State.loaded image).mem a).toNat := by
  obtain ⟨hlen, hbyte⟩ := (imageOk_iff image).1 h
  have ha : a.toNat < image.length := by rw [hlen]; exact a.isLt
  have hv : image[a.toNat] < 256 := hbyte _ (List.getElem_mem ha)
  rw [memRead, State.loaded_mem, Memory.readAt_ofBytes _ _ _ (by simp [hlen, Config.memSize])]
  simp [ha, Nat.mod_eq_of_lt hv]

/-- Settles O39. -/
theorem resetAndLoadLeaveTheStatedValues : Obligations.ResetAndLoadLeaveTheStatedValues := by
  intro e
  constructor
  · exact ⟨State.reset, serve_reset e, rfl, rfl, rfl, rfl, rfl, rfl, rfl, rfl, fun _ => rfl⟩
  · intro image himage
    exact ⟨State.loaded image, serve_load e image himage, rfl, rfl, rfl, rfl, rfl, rfl, rfl, rfl,
      memRead_loaded image himage⟩

/-- The code of a cause names it (10_state.md R30). -/
@[simp] theorem HaltCause.ofCode_code (c : HaltCause) : HaltCause.ofCode c.code = c := by
  cases c <;> rfl

@[simp] theorem Memory.cells_length (m : Memory) : m.cells.length = 16 := by
  simp [Memory.cells, addresses, Config.memSize]

/-- SNAPSHOT lists the cells in index order (R35). -/
theorem Memory.cells_getElem? (m : Memory) (a : Nibble) : m.cells[a.toNat]? = some (memRead m a) := by
  have ha : a.toNat < Config.memSize := a.isLt
  simp [Memory.cells, addresses, List.getElem?_range ha]

/-- Settles O41. -/
theorem snapshotReturnsEveryElementAndChangesNothing :
    Obligations.SnapshotReturnsEveryElementAndChangesNothing := fun e =>
  ⟨e.state.snapshot, serve_snapshot e, rfl, rfl, rfl, rfl, rfl, rfl, rfl,
    HaltCause.ofCode_code e.state.cause, Memory.cells_length e.state.mem, Memory.cells_getElem? e.state.mem⟩

end Machine
end Sys2Proof
end

section
/-! PROOFS. Who writes memory: RESET and LOAD, and no STEP. -/

namespace Sys2Proof.Machine

/-- Every STEP answers a next state, and on each of its paths only registers and the halt state are written
(20_memory.md R53, R58). -/
theorem step_next_mem (s : State) : ∃ t, step s = .next t ∧ t.mem = s.mem := by
  rcases step_cases s with ⟨-, heq⟩ | ⟨-, -, heq⟩ | ⟨-, i, -, heq⟩
  · exact ⟨s, heq, rfl⟩
  · exact ⟨_, heq, by rw [State.halt_mem, fetch_mem]⟩
  · exact ⟨_, heq, by rw [endOfStep_mem, executed_mem, fetch_mem]⟩

theorem step_mem (s t : State) (h : step s = .next t) : t.mem = s.mem := by
  obtain ⟨u, hu, hmem⟩ := step_next_mem s
  cases hu.symm.trans h
  exact hmem

/-- Settles O18. -/
theorem noStepFaultsAndNoneWritesMemory : Obligations.NoStepFaultsAndNoneWritesMemory := by
  intro s
  obtain ⟨t, hstep, hmem⟩ := step_next_mem s
  exact ⟨t, hstep, hmem, fun a => by rw [hmem]⟩

/-- The memory a list of operations leaves is taken one operation at a time. -/
theorem lastImage_cons (op : HostOp) (ops : List HostOp) (m : Memory) :
    lastImage (op :: ops) m = lastImage ops (lastImage [op] m) := by
  cases op <;> rfl

/-- A served operation leaves in memory what it wrote if it is RESET or LOAD, and what was there if not. -/
theorem serve_mem (op : HostOp) (e f : Engine) (r : Response) (h : serve op e = .next (f, r)) :
    f.state.mem = lastImage [op] e.state.mem := by
  rcases serve_cases op e f r h with
    ⟨rfl, rfl⟩ | ⟨image, rfl, -, rfl⟩ | ⟨rfl, -, t, hstep, rfl⟩ | ⟨rfl, rfl⟩
  · rfl
  · rfl
  · exact step_mem e.state t hstep
  · rfl

/-- Settles O43, by induction on the session. -/
theorem memoryIsWhatTheLastResetOrLoadWrote : Obligations.MemoryIsWhatTheLastResetOrLoadWrote := by
  intro ops
  induction ops with
  | nil =>
    intro e e' h
    cases h
    rfl
  | cons op ops ih =>
    intro e e' h
    obtain ⟨f, r, hop, hrest⟩ := sessionState_cons_next op ops e e' h
    calc e'.state.mem
      _ = lastImage ops f.state.mem := ih f e' hrest
      _ = lastImage ops (lastImage [op] e.state.mem) := by rw [serve_mem op e f r hop]
      _ = lastImage (op :: ops) e.state.mem := (lastImage_cons op ops e.state.mem).symm

end Sys2Proof.Machine
end

section
/-! PROOFS. Decode and encode: decoding a byte is finding the instruction that it encodes, and the opcode nibble alone
selects which. -/

namespace Sys2Proof

/-- R74's map read backwards: the opcodes of the five instructions are distinct (30_encoding.md R74). -/
theorem mnemonicOf_eq_some_iff (o : Nibble) (m : Mnemonic) : mnemonicOf o = some m ↔ opcodeOf m = o := by
  constructor
  · intro h
    simpa using List.find?_some h
  · rintro rfl
    cases m <;> rfl

@[simp] theorem Mnemonic.instr_mnemonic (m : Mnemonic) (x : Nibble) : (m.instr x).mnemonic = m := by
  cases m <;> rfl

@[simp] theorem Mnemonic.instr_operand (m : Mnemonic) (x : Nibble) : (m.instr x).operand = x := by
  cases m <;> rfl

/-- An instruction is its name and its operand. -/
@[simp] theorem Instr.instr_mnemonic_operand (i : Instr) : i.mnemonic.instr i.operand = i := by
  cases i <;> rfl

theorem decode_of_mnemonicOf_some (v : Byte) (m : Mnemonic) (h : mnemonicOf (opcodeField v) = some m) :
    decode v = .ok (m.instr (operandField v)) := by
  simp only [decode, h]

theorem decode_of_mnemonicOf_none (v : Byte) (h : mnemonicOf (opcodeField v) = none) :
    decode v = .error (.reservedOpcode (opcodeField v)) := by
  simp only [decode, h]

@[simp] theorem decode_encode (i : Instr) : decode (encode i) = .ok i := by
  have hop : opcodeField (encode i) = opcodeOf i.mnemonic := opcodeField_instrByte _ _
  have hx : operandField (encode i) = i.operand := operandField_instrByte _ _
  rw [decode_of_mnemonicOf_some (encode i) i.mnemonic ((mnemonicOf_eq_some_iff _ _).2 hop.symm), hx,
    Instr.instr_mnemonic_operand]

theorem encode_of_decode (v : Byte) (i : Instr) (h : decode v = .ok i) : encode i = v := by
  obtain ⟨hop, hx⟩ := decode_ok_fields v i h
  rw [encode, hop, hx, instrByte_fields]

/-- A byte is selected for an instruction exactly by its high nibble (R74, R76). -/
theorem decode_selects_iff (v : Byte) (m : Mnemonic) :
    (∃ x, decode v = .ok (m.instr x)) ↔ opcodeField v = opcodeOf m := by
  constructor
  · rintro ⟨x, h⟩
    simpa using (decode_ok_fields v _ h).1.symm
  · intro h
    exact ⟨_, decode_of_mnemonicOf_some v m ((mnemonicOf_eq_some_iff _ _).2 h.symm)⟩

theorem decode_selects_of_nibble (v : Byte) (m : Mnemonic) (h : v.toNat / 16 = (opcodeOf m).toNat) :
    ∃ x, decode v = .ok (m.instr x) :=
  (decode_selects_iff v m).2 (BitVec.eq_of_toNat_eq (by rw [opcodeField_toNat, h]))

/-- The five rows of R74 stand at the two ends of the sixteen opcode values. -/
theorem opcodeOf_outside_reserved (m : Mnemonic) : (opcodeOf m).toNat ≤ 2 ∨ 14 ≤ (opcodeOf m).toNat := by
  cases m <;> decide

/-- The decode errors are the bytes whose high nibble is one of the eleven reserved values (R75). -/
theorem decode_error_iff (v : Byte) :
    (∃ r, decode v = .error r) ↔ 0x30 ≤ v.toNat ∧ v.toNat ≤ 0xDF := by
  constructor
  · rintro ⟨r, h⟩
    have hlda : 0 ≠ v.toNat / 16 := decode_error_opcode_ne v r h .LDA
    have hadd : 1 ≠ v.toNat / 16 := decode_error_opcode_ne v r h .ADD
    have hsub : 2 ≠ v.toNat / 16 := decode_error_opcode_ne v r h .SUB
    have hout : 14 ≠ v.toNat / 16 := decode_error_opcode_ne v r h .OUT
    have hhlt : 15 ≠ v.toNat / 16 := decode_error_opcode_ne v r h .HLT
    omega
  · rintro ⟨hlow, hhigh⟩
    cases hd : decode v with
    | error r => exact ⟨r, rfl⟩
    | ok i =>
      have hop := (decode_ok_nibbles v i hd).1
      have hrows := opcodeOf_outside_reserved i.mnemonic
      omega

/-- The mask 0xF0 keeps the high nibble and clears the low one. -/
theorem and_mask_eq_instrByte (v : Byte) : v &&& 0xF0 = instrByte (opcodeField v) 0 := by
  revert v; decide

/-- R74's match and mask form, one row for each instruction. -/
theorem match_mask_iff (v : Byte) (m : Mnemonic) :
    v &&& 0xF0 = instrByte (opcodeOf m) 0 ↔ ∃ x, decode v = .ok (m.instr x) := by
  rw [decode_selects_iff, and_mask_eq_instrByte]
  constructor
  · intro h
    simpa using congrArg opcodeField h
  · intro h
    rw [h]

/-- The name a byte decodes to is a function of its high nibble (R76). -/
theorem decode_mnemonic (v : Byte) :
    (decode v).toOption.map Instr.mnemonic = mnemonicOf (opcodeField v) := by
  cases h : mnemonicOf (opcodeField v) with
  | none => rw [decode_of_mnemonicOf_none v h]; rfl
  | some m => rw [decode_of_mnemonicOf_some v m h]; simp [Except.toOption]

/-- Settles O30. -/
theorem decodeAndEncodeAreInverse : Obligations.DecodeAndEncodeAreInverse :=
  ⟨decode_encode, encode_of_decode, decode_error_iff⟩

/-- Settles O31: each row of R74 is `match_mask_iff` of its mnemonic. -/
theorem opcodeMapSelectsByMatchAndMask : Obligations.OpcodeMapSelectsByMatchAndMask := fun v =>
  ⟨match_mask_iff v .LDA, match_mask_iff v .ADD, match_mask_iff v .SUB, match_mask_iff v .OUT,
    match_mask_iff v .HLT, (decode_error_iff v).symm, fun i h => (decode_ok_nibbles v i h).2⟩

/-- Settles O32. -/
theorem outAndHltIgnoreTheirNibble : Obligations.OutAndHltIgnoreTheirNibble := by
  refine ⟨fun _ _ _ => ⟨rfl, rfl⟩, fun v hlow hhigh => ?_, fun v hlow => ?_, rfl, rfl⟩
  · have hnibble : v.toNat / 16 = 14 := by omega
    exact decode_selects_of_nibble v .OUT hnibble
  · have hbyte : v.toNat < 256 := v.isLt
    have hnibble : v.toNat / 16 = 15 := by omega
    exact decode_selects_of_nibble v .HLT hnibble

/-- Settles O33. -/
theorem highNibbleAloneSelectsTheInstruction : Obligations.HighNibbleAloneSelectsTheInstruction := by
  intro v w h
  have hop : opcodeField v = opcodeField w :=
    BitVec.eq_of_toNat_eq (by rw [opcodeField_toNat, opcodeField_toNat, h])
  rw [decode_mnemonic, decode_mnemonic, hop]

/-- Settles O34: five of the words are encodings, and the map has no row for the other two. -/
theorem wordsOfTheTableDecodeAsWritten : Obligations.WordsOfTheTableDecodeAsWritten :=
  ⟨decode_encode (.lda 14), decode_encode (.add 15), decode_encode (.sub 15), decode_encode (.out 0),
    decode_encode (.hlt 5), decode_of_mnemonicOf_none 0b00111100 rfl, decode_of_mnemonicOf_none 0b11011111 rfl⟩

end Sys2Proof
end

section
/-! PROOFS. Assembly: what one statement writes or why it stops, and what every text that assembles gives. -/

namespace Sys2Proof

/-- The operand of an instruction as its statement writes it: OUT and HLT take none (30_encoding.md R79).
`asmOperand_ok` and `disassemble_encode` tie it to the assembler and the disassembler. -/
def Instr.writtenOperand : Instr → Option Nat
  | .lda a => some a.toNat
  | .add a => some a.toNat
  | .sub a => some a.toNat
  | .out _ => none
  | .hlt _ => none

/-- The byte of an instruction is its opcode's base plus its operand (R74). -/
theorem encode_toNat (i : Instr) :
    (encode i).toNat = 16 * (opcodeOf i.mnemonic).toNat + i.operand.toNat := by
  have hhigh : (encode i).toNat / 16 = (opcodeOf i.mnemonic).toNat := by
    rw [← opcodeField_toNat]; exact congrArg BitVec.toNat (opcodeField_instrByte _ _)
  have hlow : (encode i).toNat % 16 = i.operand.toNat := by
    rw [← operandField_toNat]; exact congrArg BitVec.toNat (operandField_instrByte _ _)
  omega

namespace Machine

theorem asmOperand_address (name : Mnemonic) (n : Nat) (hout : name ≠ .OUT) (hhlt : name ≠ .HLT) :
    asmOperand name (some n) =
      if n < 16 then .ok (BitVec.ofNat 4 n) else .error (.failed .operandRange) := by
  cases name with
  | LDA | ADD | SUB => rfl
  | OUT => exact absurd rfl hout
  | HLT => exact absurd rfl hhlt

theorem asmOperand_missing (name : Mnemonic) (hout : name ≠ .OUT) (hhlt : name ≠ .HLT) :
    asmOperand name none = .error (.failed .missingOperand) := by
  cases name with
  | LDA | ADD | SUB => rfl
  | OUT => exact absurd rfl hout
  | HLT => exact absurd rfl hhlt

/-- An operand the assembler accepts is the one that the statement of the instruction writes. -/
theorem asmOperand_ok (name : Mnemonic) (operand : Option Nat) (x : Nibble)
    (h : asmOperand name operand = .ok x) : (name.instr x).writtenOperand = operand := by
  cases operand with
  | none =>
    cases name with
    | LDA | ADD | SUB => cases h
    | OUT | HLT => rfl
  | some n =>
    cases name with
    | OUT | HLT => cases h
    | LDA | ADD | SUB =>
      simp only [asmOperand] at h
      split at h
      · next hn =>
        cases h
        exact congrArg some (Nat.mod_eq_of_lt hn)
      · cases h

theorem disassemble_encode (i : Instr) :
    disassemble (encode i) = some (.instr i.mnemonic i.writtenOperand) := by
  rw [disassemble, decode_encode]
  cases i <;> rfl

/-- A write to a free cell of the 16. -/
theorem put_of_free (c : AsmState) (a v : Nat) (ha : a < 16) (hfree : c.written.lookup a = none) :
    c.put a v = .ok { c with written := (a, v) :: c.written } := by
  have hin : ¬ Config.memSize ≤ a := by simpa [Config.memSize] using ha
  simp only [AsmState.put, if_neg hin, hfree, Option.isSome_none, Bool.false_eq_true, if_false]

/-- A write past address 15 (R81). -/
theorem put_exhausted (c : AsmState) (a v : Nat) (ha : 16 ≤ a) :
    c.put a v = .error (.failed .memoryExhausted) := by
  have hout : Config.memSize ≤ a := ha
  simp only [AsmState.put, if_pos hout]

/-! The equations of a statement, one for each way it can go. -/

section
variable {c c' : AsmState}

theorem asmStatement_instr_of_operand_error {name : Mnemonic} {operand : Option Nat} {e : AsmStop}
    (h : asmOperand name operand = .error e) : asmStatement c (.instr name operand) = .error e := by
  simp only [asmStatement, h]

theorem asmStatement_instr_of_put_error {name : Mnemonic} {operand : Option Nat} {x : Nibble} {e : AsmStop}
    (h : asmOperand name operand = .ok x) (hput : c.put c.ip (encode (name.instr x)).toNat = .error e) :
    asmStatement c (.instr name operand) = .error e := by
  simp only [asmStatement, h, hput]

theorem asmStatement_instr_of_put {name : Mnemonic} {operand : Option Nat} {x : Nibble}
    (h : asmOperand name operand = .ok x) (hput : c.put c.ip (encode (name.instr x)).toNat = .ok c') :
    asmStatement c (.instr name operand) = .ok { c' with ip := c.ip + 1 } := by
  simp only [asmStatement, h, hput]

theorem asmStatement_org (c : AsmState) (a : Nat) :
    asmStatement c (.org a) =
      if a < 16 then .ok { c with dp := some a } else .error (.failed .operandRange) := rfl

theorem asmStatement_db_of_no_org {v : Nat} (h : c.dp = none) :
    asmStatement c (.db v) = .error (.failed .dbBeforeOrg) := by
  simp only [asmStatement, h]

theorem asmStatement_db_of_value_range {v d : Nat} (h : c.dp = some d) (hv : 256 ≤ v) :
    asmStatement c (.db v) = .error (.failed .valueRange) := by
  simp only [asmStatement, h, if_neg (Nat.not_lt.2 hv)]

theorem asmStatement_db_of_put_error {v d : Nat} {e : AsmStop} (h : c.dp = some d) (hv : v < 256)
    (hput : c.put d v = .error e) : asmStatement c (.db v) = .error e := by
  simp only [asmStatement, h, if_pos hv, hput]

theorem asmStatement_db_of_put {v d : Nat} (h : c.dp = some d) (hv : v < 256)
    (hput : c.put d v = .ok c') : asmStatement c (.db v) = .ok { c' with dp := some (d + 1) } := by
  simp only [asmStatement, h, if_pos hv, hput]

end

/-- What a statement that succeeds writes: nothing, or one cell with a byte. -/
theorem asmStatement_written (c c' : AsmState) (st : AsmStatement) (h : asmStatement c st = .ok c') :
    c'.written = c.written ∨ ∃ a v, v < 256 ∧ c'.written = (a, v) :: c.written := by
  cases st with
  | instr name operand =>
    cases hop : asmOperand name operand with
    | error e => cases (asmStatement_instr_of_operand_error hop).symm.trans h
    | ok x =>
      cases hput : c.put c.ip (encode (name.instr x)).toNat with
      | error e => cases (asmStatement_instr_of_put_error hop hput).symm.trans h
      | ok d =>
        cases (asmStatement_instr_of_put hop hput).symm.trans h
        obtain ⟨-, -, rfl⟩ := put_ok c d _ _ hput
        exact Or.inr ⟨_, _, BitVec.isLt _, rfl⟩
  | org a =>
    rw [asmStatement_org] at h
    split at h
    · cases h
      exact Or.inl rfl
    · cases h
  | db v =>
    cases hdp : c.dp with
    | none => cases (asmStatement_db_of_no_org hdp).symm.trans h
    | some d =>
      by_cases hv : v < 256
      · cases hput : c.put d v with
        | error e => cases (asmStatement_db_of_put_error hdp hv hput).symm.trans h
        | ok f =>
          cases (asmStatement_db_of_put hdp hv hput).symm.trans h
          obtain ⟨-, -, rfl⟩ := put_ok c f _ _ hput
          exact Or.inr ⟨_, _, hv, rfl⟩
      · cases (asmStatement_db_of_value_range hdp (Nat.not_lt.1 hv)).symm.trans h
  | other name => cases h

/-- The invariant of assembly: only bytes are written. -/
def AsmState.WritesBytes (c : AsmState) : Prop := ∀ p ∈ c.written, p.2 < 256

theorem asmStatement_writesBytes (c c' : AsmState) (st : AsmStatement) (hc : c.WritesBytes)
    (h : asmStatement c st = .ok c') : c'.WritesBytes := by
  rcases asmStatement_written c c' st h with heq | ⟨a, v, hv, heq⟩
  · rw [AsmState.WritesBytes, heq]
    exact hc
  · rw [AsmState.WritesBytes, heq]
    exact List.forall_mem_cons.2 ⟨hv, hc⟩

/-- The cells of a text that assembles are those of the state its last line leaves. -/
theorem asmLines_image (lines : List (Option AsmStatement)) (n : Nat) (c : AsmState) (image : List Nat)
    (hc : c.WritesBytes) (h : asmLines n c lines = .image image) :
    ∃ c' : AsmState, c'.WritesBytes ∧ image = c'.toImage := by
  induction lines generalizing n c with
  | nil =>
    cases h
    exact ⟨c, hc, rfl⟩
  | cons line rest ih =>
    cases line with
    | none => exact ih (n + 1) c hc h
    | some st =>
      cases hst : asmStatement c st with
      | error e => simp [asmLines, hst] at h
      | ok d =>
        have hrest : asmLines (n + 1) d rest = .image image := by simpa only [asmLines, hst] using h
        exact ih (n + 1) d (asmStatement_writesBytes c d st hc hst) hrest

theorem imageOk_toImage (c : AsmState) (hc : c.WritesBytes) : imageOk c.toImage = true := by
  refine (imageOk_iff _).2 ⟨by simp [AsmState.toImage, Config.memSize], fun v hv => ?_⟩
  obtain ⟨a, -, rfl⟩ := List.mem_map.1 hv
  cases hcell : c.written.lookup a with
  | none => exact Nat.zero_lt_succ _
  | some w =>
    obtain ⟨before, after, heq, -⟩ := List.lookup_eq_some_iff.1 hcell
    exact hc (a, w) (by simp [heq])

/-- Settles O38: every statement keeps `WritesBytes`, by induction on the lines. -/
theorem assembledTextsAreLoadableImages : Obligations.AssembledTextsAreLoadableImages := by
  intro lines image h
  obtain ⟨c, hc, rfl⟩ := asmLines_image lines 1 _ image (fun _ hp => absurd hp List.not_mem_nil) h
  have himage : imageOk c.toImage = true := imageOk_toImage c hc
  exact ⟨himage, fun e => serve_load e _ himage⟩

/-- Settles O35. -/
theorem disassemblyReturnsTheAssembledStatement : Obligations.DisassemblyReturnsTheAssembledStatement := by
  constructor
  · intro name operand x h
    rw [disassemble_encode, Mnemonic.instr_mnemonic, asmOperand_ok name operand x h]
  · exact fun x => ⟨disassemble_encode (.out x), disassemble_encode (.hlt x)⟩

/-- Settles O36. -/
theorem assemblyStatementsHaveTheirImageEffect : Obligations.AssemblyStatementsHaveTheirImageEffect := by
  intro c
  refine ⟨fun name operand x hop hip hfree => ?_, fun a ha => ?_, fun v d hdp hd hv hfree => ?_⟩
  · rw [asmStatement_instr_of_put hop (put_of_free c c.ip _ hip hfree), encode_toNat]
    cases name <;> rfl
  · rw [asmStatement_org, if_pos ha]
  · rw [asmStatement_db_of_put hdp hv (put_of_free c d v hd hfree)]

/-- Settles O37. -/
theorem assemblyFailsOnEachListedError : Obligations.AssemblyFailsOnEachListedError := by
  intro c
  refine ⟨fun n hn => ?_, fun name n hout hhlt hn => ?_, fun v d hdp hv => asmStatement_db_of_value_range hdp hv,
    fun v hdp => asmStatement_db_of_no_org hdp, fun name => rfl, fun name operand x hop hip => ?_,
    fun v d hdp hv hd => ?_, fun name hout hhlt => ?_, fun n => ⟨rfl, rfl⟩⟩
  · rw [asmStatement_org, if_neg (Nat.not_lt.2 hn)]
  · exact asmStatement_instr_of_operand_error
      (by rw [asmOperand_address name n hout hhlt, if_neg (Nat.not_lt.2 hn)])
  · exact asmStatement_instr_of_put_error hop (put_exhausted c c.ip _ hip)
  · exact asmStatement_db_of_put_error hdp hv (put_exhausted c d v hd)
  · exact asmStatement_instr_of_operand_error (asmOperand_missing name hout hhlt)

end Machine
end Sys2Proof
end

section
/-! PROOFS. What one cycle answers: the state after it and its report, together. -/

namespace Sys2Proof.Machine

theorem step_of_cycle {s t : State} {r : StepReport} (h : cycle exec s = .next (t, r)) :
    step s = .next t := by
  rw [step, h, onNext_next]

theorem stepReport_of_cycle {s t : State} {r : StepReport} (h : cycle exec s = .next (t, r)) :
    stepReport s = .next r := by
  rw [stepReport, h, onNext_next]

/-- After the execute phase `pc` is one past the fetch address (40_instruction_cycle.md R102, R106). -/
theorem executed_fetch_pc_toNat (i : Instr) (s : State) (h : s.pc.toNat < 16) :
    (executed i (fetch s)).pc.toNat = s.pc.toNat + 1 := by
  rw [executed_pc, fetch_pc, pc_increment_toNat s h]

theorem cycle_of_not_runnable (s : State) (h : runnable s = false) :
    cycle exec s = .next (s, .notRunnable) := by
  simp [cycle, h]

/-- The report of a decode error gives the opcode and the address of the fetched byte (60_exceptions.md R160). -/
theorem cycle_of_decode_error (s : State) (r : DecodeRefusal) (h : runnable s = true)
    (hd : decode (fetchedByte s) = .error r) :
    cycle exec s = .next ((fetch s).halt .decodeError, .decodeError (opcodeField (fetchedByte s))
      (pcAddress s) true ((fetch s).halt .decodeError).snapshot) := by
  simp only [cycle, h, if_true, fetch_ir, hd]
  rfl

theorem cycle_of_decode_ok (s : State) (i : Instr) (h : runnable s = true)
    (hd : decode (fetchedByte s) = .ok i) :
    cycle exec s = .next (finishStep i (executed i (fetch s))) := by
  simp only [cycle, h, if_true, fetch_ir, hd, exec_eq_executed, onNext_next]

/-- An execute phase that leaves `halted == 0` and `pc == 16` ends the step with the PC overflow halt
(40_instruction_cycle.md R107). -/
theorem finishStep_of_overflow (i : Instr) (e : State) (h : e.halted = false ∧ e.pc.toNat = 16) :
    finishStep i e = (e.halt .pcOverflow, .haltPcOverflow (stepResult i (e.halt .pcOverflow))) := by
  simp only [finishStep, endOfStep, (pcOverflows_iff e).2 h, if_true]

/-- The end of any other step leaves what the execute phase left, and HLT alone reports HALT_HLT (R107, R109). -/
theorem finishStep_of_no_overflow (i : Instr) (e : State) (h : ¬(e.halted = false ∧ e.pc.toNat = 16)) :
    finishStep i e =
      (e, if i.mnemonic = .HLT then .haltHlt (stepResult i e) else .executed (stepResult i e)) := by
  simp only [finishStep, endOfStep, mt (pcOverflows_iff e).1 h, if_false, Bool.false_eq_true]

/-- Settles O6: no instruction's execute phase is anything but `executed`, whose frame is known. -/
theorem executePhasesKeepPcIrAndMemory : Obligations.ExecutePhasesKeepPcIrAndMemory := fun i s =>
  ⟨executed i s, exec_eq_executed i s, executed_pc i s, executed_ir i s, executed_mem i s⟩

/-- Settles O7: below 16 the address field is the program counter, and its increment is exact. -/
theorem fetchLatchesAddressSuccessorAndByte : Obligations.FetchLatchesAddressSuccessorAndByte := by
  intro s hpc _
  have hmar : (fetch s).mar.toNat = s.pc.toNat := pcAddress_toNat s hpc
  have hnext : (fetch s).pc.toNat = s.pc.toNat + 1 := pc_increment_toNat s hpc
  exact ⟨hmar, hnext, by omega, by omega, rfl, rfl, rfl, rfl, rfl, rfl, rfl⟩

/-- Settles O8. -/
theorem stepRunsTheDecodedInstruction : Obligations.StepRunsTheDecodedInstruction := by
  intro s i hr hd
  rw [exec_eq_executed, onNext_next]
  exact step_of_decode_ok s i hr hd

/-- Settles O9: the end of the step, by whether its condition holds of the state the execute phase left. -/
theorem stepPastAddressFifteenHaltsWithPcOverflow :
    Obligations.StepPastAddressFifteenHaltsWithPcOverflow := by
  constructor
  · intro s i e hr hd he
    cases (exec_eq_executed i (fetch s)).symm.trans he
    have hcycle := cycle_of_decode_ok s i hr hd
    split_ifs with hover
    · rw [finishStep_of_overflow i _ hover] at hcycle
      exact ⟨step_of_cycle hcycle, _, stepReport_of_cycle hcycle⟩
    · rw [finishStep_of_no_overflow i _ hover] at hcycle
      refine ⟨step_of_cycle hcycle, fun x => ?_⟩
      rw [stepReport_of_cycle hcycle]
      split_ifs <;> simp
  · intro s r hr hd
    have hcycle := cycle_of_decode_error s r hr hd
    exact ⟨_, step_of_cycle hcycle, rfl, fun x => by simp [stepReport_of_cycle hcycle]⟩

/-- A report of NOT_RUNNABLE comes from a state that is not runnable. -/
theorem not_runnable_of_cycle (s t : State) (h : cycle exec s = .next (t, .notRunnable)) :
    runnable s = false := by
  rcases cycle_cases exec s _ h with ⟨hr, -⟩ | ⟨-, -, hp⟩ | ⟨-, i, e, -, -, hp⟩
  · exact hr
  · cases hp
  · by_cases hover : e.halted = false ∧ e.pc.toNat = 16
    · cases hp.trans (finishStep_of_overflow i e hover)
    · have hreport := congrArg Prod.snd (hp.trans (finishStep_of_no_overflow i e hover))
      dsimp only at hreport
      split_ifs at hreport

/-- Under the invariant an engine that is not halted has an address in `pc` (10_state.md R22). -/
theorem runnable_of_inv (s : State) (h : s.Inv) (hrun : s.halted = false) : runnable s = true := by
  obtain ⟨hle, h16, -⟩ := h
  have hne : s.pc.toNat ≠ 16 := fun hpc => by simp [h16 hpc] at hrun
  exact (runnable_iff s).2 ⟨by omega, hrun⟩

/-- Settles O10. -/
theorem stepNotRunnableChangesNothing : Obligations.StepNotRunnableChangesNothing := by
  intro s
  refine ⟨fun hno => ?_, fun hyes hreport => ?_,
    fun h => ⟨And.right, fun hrun => (runnable_iff s).1 (runnable_of_inv s h hrun)⟩⟩
  · have hcycle := cycle_of_not_runnable s (Bool.eq_false_iff.2 (mt (runnable_iff s).1 hno))
    exact ⟨step_of_cycle hcycle, stepReport_of_cycle hcycle⟩
  · obtain ⟨⟨t, r⟩, hcycle, rfl⟩ := (onNext_eq_next _ _ _).1 hreport
    exact absurd ((runnable_iff s).2 hyes) (by simp [not_runnable_of_cycle s t hcycle])

end Sys2Proof.Machine
end

section
/-! PROOFS. The outcome table: each path of the cycle reports an outcome whose row holds. -/

namespace Sys2Proof.Machine

/-- The row of a decode error: its opcode is one of the eleven reserved values. -/
theorem outcomeRow_of_decode_error (s : State) (r : DecodeRefusal) (hr : runnable s = true)
    (hd : decode (fetchedByte s) = .error r) :
    outcomeRow s ((fetch s).halt .decodeError) (.decodeError (opcodeField (fetchedByte s))
      (pcAddress s) true ((fetch s).halt .decodeError).snapshot) := by
  have hop := opcodeField_toNat (fetchedByte s)
  obtain ⟨hlow, hhigh⟩ := (decode_error_iff (fetchedByte s)).1 ⟨r, hd⟩
  have haddr := pcAddress_toNat s ((runnable_iff s).1 hr).1
  exact ⟨hr, by omega, by omega, rfl, haddr, rfl, rfl, rfl, rfl⟩

/-- The row of an instruction: HLT halts, at every address; any other leaves the halt state of the invariant, and
then its report turns on whether `pc` has run past address 15. -/
theorem outcomeRow_of_decode_ok (s : State) (i : Instr) (h : s.Inv) (hr : runnable s = true)
    (hd : decode (fetchedByte s) = .ok i) :
    outcomeRow s (finishStep i (executed i (fetch s))).1 (finishStep i (executed i (fetch s))).2 := by
  obtain ⟨hpc, hhalted⟩ := (runnable_iff s).1 hr
  obtain ⟨-, -, hcause, -, -⟩ := h
  have hnext : (executed i (fetch s)).pc.toNat = s.pc.toNat + 1 := executed_fetch_pc_toNat i s hpc
  obtain ⟨hop, hx⟩ : opcodeOf i.mnemonic = opcodeField (executed i (fetch s)).ir ∧
      i.operand = operandField (executed i (fetch s)).ir := by
    rw [executed_ir, fetch_ir]
    exact decode_ok_fields _ i hd
  rcases executed_haltState_cases i (fetch s) with ⟨hname, hh, hc⟩ | ⟨hname, hh, hc⟩
  · have hrun : (executed i (fetch s)).halted = false := hh.trans hhalted
    by_cases h16 : (executed i (fetch s)).pc.toNat = 16
    · rw [finishStep_of_overflow i _ ⟨hrun, h16⟩]
      exact ⟨hr, hname, by omega, h16, rfl, rfl, hop, hx, rfl, rfl⟩
    · have hlt : (executed i (fetch s)).pc.toNat < 16 := by omega
      rw [finishStep_of_no_overflow i _ (fun hover => h16 hover.2), if_neg hname]
      exact ⟨hr, hname, hlt, hrun, hc.trans (hcause.2 hhalted), hop, hx, rfl, rfl⟩
  · rw [finishStep_of_no_overflow i _ (fun hover => by simp [hh] at hover), if_pos hname]
    exact ⟨hr, hname, hh, hc, hop, hx, rfl, rfl⟩

/-- Under the invariant a cycle always answers, and the row of its outcome holds. -/
theorem cycle_outcomeRow (s : State) (h : s.Inv) :
    ∃ t r, cycle exec s = .next (t, r) ∧ outcomeRow s t r := by
  cases hr : runnable s with
  | false =>
    have hhalted : s.halted = true := by
      by_contra hne
      simp [runnable_of_inv s h (by simpa using hne)] at hr
    exact ⟨s, .notRunnable, cycle_of_not_runnable s hr, hr, rfl, hhalted⟩
  | true =>
    cases hd : decode (fetchedByte s) with
    | error r => exact ⟨_, _, cycle_of_decode_error s r hr hd, outcomeRow_of_decode_error s r hr hd⟩
    | ok i => exact ⟨_, _, cycle_of_decode_ok s i hr hd, outcomeRow_of_decode_ok s i h hr hd⟩

/-- Settles O17. -/
theorem everyStepHasOneOfTheFiveOutcomes : Obligations.EveryStepHasOneOfTheFiveOutcomes := by
  intro s h
  obtain ⟨t, r, hcycle, hrow⟩ := cycle_outcomeRow s h
  exact ⟨t, r, step_of_cycle hcycle, stepReport_of_cycle hcycle, hrow⟩

end Sys2Proof.Machine
end

section
/-! PROOFS. STEP against the flat transcription of its sequence over whole numbers (40_instruction_cycle.md R108). -/

namespace Sys2Proof.Machine

theorem fetchedByte_eq_readAt (s : State) (h : s.pc.toNat < 16) :
    fetchedByte s = s.mem.readAt s.pc.toNat := by
  rw [fetchedByte, memRead, pcAddress_toNat s h]

/-- The fetch as the transcription writes it. -/
theorem fetch_asWritten (s : State) (h : s.pc.toNat < 16) :
    fetch s = { s with
      pc := BitVec.ofNat 5 (s.pc.toNat + 1), mar := BitVec.ofNat 4 s.pc.toNat,
      ir := BitVec.ofNat 8 (s.mem.readAt s.pc.toNat).toNat } := by
  have hpc : (fetch s).pc = BitVec.ofNat 5 (s.pc.toNat + 1) := by
    rw [fetch_pc, ← pc_increment_toNat s h, BitVec.ofNat_toNat, BitVec.setWidth_eq]
  have hmar : (fetch s).mar = BitVec.ofNat 4 s.pc.toNat := by
    rw [fetch_mar, ← pcAddress_toNat s h, BitVec.ofNat_toNat, BitVec.setWidth_eq]
  have hir : (fetch s).ir = BitVec.ofNat 8 (s.mem.readAt s.pc.toNat).toNat := by
    rw [fetch_ir, fetchedByte_eq_readAt s h, BitVec.ofNat_toNat, BitVec.setWidth_eq]
  exact State.ext_fields _ _ hpc hmar hir rfl rfl rfl rfl rfl rfl

theorem endOfStep_of_halted (e : State) (h : e.halted = true) : endOfStep e = e := by
  rcases endOfStep_cases e with ⟨hrun, -, -⟩ | ⟨-, heq⟩
  · simp [h] at hrun
  · exact heq

/-- The end of the step as the transcription writes it: a test of the address, made where the engine runs on. -/
theorem endOfStep_asWritten (s e : State) (hpc : e.pc.toNat = s.pc.toNat + 1) (hrun : e.halted = false) :
    endOfStep e = if s.pc.toNat + 1 = 16 then { e with halted := true, cause := .pcOverflow } else e := by
  rcases endOfStep_cases e with ⟨-, h16, heq⟩ | ⟨hno, heq⟩
  · rw [heq, if_pos (hpc ▸ h16)]
    rfl
  · rw [heq, if_neg (fun h16 => hno ⟨hrun, hpc.trans h16⟩)]

/-- The sum over whole numbers (41_load_arithmetic.md R121). -/
theorem aluAdd_asWritten (x y : Byte) : aluAdd x y = BitVec.ofNat 8 ((x.toNat + y.toNat) % 256) := by
  refine BitVec.eq_of_toNat_eq ?_
  rw [aluAdd_toNat, BitVec.toNat_ofNat, Nat.mod_mod]

/-- The difference as a sum with the complement, over whole numbers (R122). -/
theorem aluSub_asWritten (x y : Byte) :
    aluSub x y = BitVec.ofNat 8 ((x.toNat + (255 - y.toNat) + 1) % 256) := by
  refine BitVec.eq_of_toNat_eq ?_
  have hsub := aluSub_toNat x y
  have hy := y.isLt
  rw [BitVec.toNat_ofNat]
  omega

theorem stepAsWritten_of_not_runnable (s : State) (h : runnable s = false) : stepAsWritten s = s := by
  have hno : ¬(s.pc.toNat < 16 ∧ s.halted = false) := by simp [← runnable_iff, h]
  rw [stepAsWritten, if_neg hno]

theorem stepAsWritten_of_decode_error (s : State) (r : DecodeRefusal) (h : runnable s = true)
    (hd : decode (fetchedByte s) = .error r) : stepAsWritten s = (fetch s).halt .decodeError := by
  have hrun := (runnable_iff s).1 h
  have hne := fun m => (decode_error_opcode_ne (fetchedByte s) r hd m).symm
  rw [fetchedByte_eq_readAt s hrun.1] at hne
  rw [fetch_asWritten s hrun.1, stepAsWritten, if_pos hrun]
  exact (if_neg (hne .LDA)).trans <| (if_neg (hne .ADD)).trans <| (if_neg (hne .SUB)).trans <|
    (if_neg (hne .OUT)).trans <| if_neg (hne .HLT)

theorem stepAsWritten_of_decode_ok (s : State) (i : Instr) (h : runnable s = true)
    (hd : decode (fetchedByte s) = .ok i) : stepAsWritten s = endOfStep (executed i (fetch s)) := by
  have hrun := (runnable_iff s).1 h
  have hnext := executed_fetch_pc_toNat i s hrun.1
  obtain ⟨hop, hx⟩ := decode_ok_nibbles (fetchedByte s) i hd
  rw [fetchedByte_eq_readAt s hrun.1] at hop hx
  rw [stepAsWritten, if_pos hrun]
  dsimp only
  rw [← hop, ← hx]
  cases i with
  | lda a | add a | sub a | out x =>
    rw [endOfStep_asWritten s _ hnext hrun.2, fetch_asWritten s hrun.1]
    simp [Instr.mnemonic, Instr.operand, opcodeOf, executed, State.setMar, State.setAcc, State.setOut,
      execAlu_eq, memRead, aluAdd_asWritten, aluSub_asWritten]
  | hlt x =>
    rw [endOfStep_of_halted _ rfl, fetch_asWritten s hrun.1]
    rfl

/-- Settles O21, by what the byte decodes to: the opcode selects the transcription's branch. -/
theorem stepIsTheSequenceAsWritten : Obligations.StepIsTheSequenceAsWritten := by
  intro s
  rcases step_cases s with ⟨hr, heq⟩ | ⟨hr, ⟨r, hd⟩, heq⟩ | ⟨hr, i, hd, heq⟩
  · rw [heq, stepAsWritten_of_not_runnable s hr]
  · rw [heq, stepAsWritten_of_decode_error s r hr hd]
  · rw [heq, stepAsWritten_of_decode_ok s i hr hd]

end Sys2Proof.Machine
end

section
/-! PROOFS. Runs end: each runnable step moves `pc` on by one or halts, so the sixteen addresses bound a run. -/

namespace Sys2Proof.Machine

theorem runnable_of_halted (s : State) (h : s.halted = true) : runnable s = false := by
  simp [runnable, h]

/-- A halted engine stays as it is however many steps are asked for (60_exceptions.md R161). -/
theorem runSteps_of_halted (k : Nat) (s : State) (h : s.halted = true) : runSteps k s = .next s := by
  induction k with
  | zero => rfl
  | succ k ih => rw [runSteps_succ k s s (step_of_not_runnable s (runnable_of_halted s h)), ih]

/-- No run faults or is refused (20_memory.md R58). -/
theorem runSteps_next (k : Nat) (s : State) : ∃ t, runSteps k s = .next t := by
  induction k generalizing s with
  | zero => exact ⟨s, rfl⟩
  | succ k ih =>
    obtain ⟨u, hstep, -⟩ := step_next_mem s
    rw [runSteps_succ k s u hstep]
    exact ih u

/-- What the end of the step leaves running has not run past address 15 (40_instruction_cycle.md R107). -/
theorem endOfStep_pc_ne_of_running (e : State) (h : (endOfStep e).halted = false) : e.pc.toNat ≠ 16 := by
  rcases endOfStep_cases e with ⟨-, -, heq⟩ | ⟨hno, heq⟩ <;> rw [heq] at h
  · cases h
  · exact fun hpc => hno ⟨h, hpc⟩

/-- A step after which the engine still runs has moved `pc` on by exactly one, to an address (R102, R107). -/
theorem step_advances (s t : State) (hr : runnable s = true) (hstep : step s = .next t)
    (hrun : t.halted = false) : t.pc.toNat = s.pc.toNat + 1 ∧ t.pc.toNat < 16 := by
  have hpc := ((runnable_iff s).1 hr).1
  rcases step_cases s with ⟨hno, -⟩ | ⟨-, -, heq⟩ | ⟨-, i, -, heq⟩
  · simp [hr] at hno
  · cases heq.symm.trans hstep
    cases hrun
  · cases heq.symm.trans hstep
    have hne := endOfStep_pc_ne_of_running _ hrun
    rw [executed_fetch_pc_toNat i s hpc] at hne
    rw [endOfStep_pc, executed_fetch_pc_toNat i s hpc]
    omega

/-- While a run goes on, `k` steps have moved `pc` on by `k`, and it is still an address. -/
theorem runSteps_advances (k : Nat) (s t : State) (hr : runnable s = true)
    (hsteps : runSteps k s = .next t) (hrun : t.halted = false) :
    t.pc.toNat = s.pc.toNat + k ∧ t.pc.toNat < 16 := by
  induction k generalizing s with
  | zero =>
    have hpc := ((runnable_iff s).1 hr).1
    cases hsteps
    exact ⟨rfl, hpc⟩
  | succ k ih =>
    obtain ⟨u, hstep, -⟩ := step_next_mem s
    rw [runSteps_succ k s u hstep] at hsteps
    cases hu : u.halted with
    | true =>
      cases (runSteps_of_halted k u hu).symm.trans hsteps
      simp [hu] at hrun
    | false =>
      obtain ⟨hnext, hlt⟩ := step_advances s u hr hstep hu
      obtain ⟨hpc, hend⟩ := ih u ((runnable_iff u).2 ⟨hlt, hu⟩) hsteps
      exact ⟨by omega, hend⟩

/-- After as many steps as addresses are left, `pc` would be no address, so the engine has halted. -/
theorem runSteps_halts (s : State) (hr : runnable s = true) :
    ∃ t, runSteps (16 - s.pc.toNat) s = .next t ∧ t.halted = true := by
  obtain ⟨t, ht⟩ := runSteps_next (16 - s.pc.toNat) s
  refine ⟨t, ht, ?_⟩
  by_contra hne
  obtain ⟨hpc, hlt⟩ := runSteps_advances _ s t hr ht (by simpa using hne)
  omega

/-- Settles O25. -/
theorem everyRunHaltsWithinSixteenSteps : Obligations.EveryRunHaltsWithinSixteenSteps := by
  constructor
  · intro s hpc hhalted
    have hr := (runnable_iff s).2 ⟨hpc, hhalted⟩
    exact ⟨runSteps_halts s hr, fun k t ht hrun => (runSteps_advances k s t hr ht hrun).1⟩
  · exact fun image _ => runSteps_halts (State.loaded image) rfl

theorem continuousRun_of_end {s t : State} {r : StepReport} (n : Nat) (h : cycle exec s = .next (t, r))
    (hend : r.endsRun = true) : continuousRun (n + 1) s = .next (t, [r]) := by
  simp only [continuousRun, h, hend, if_true]

theorem continuousRun_of_go_on {s t : State} {r : StepReport} (n : Nat) (h : cycle exec s = .next (t, r))
    (hgo : r.endsRun = false) :
    continuousRun (n + 1) s = onNext (fun p => (p.1, r :: p.2)) (continuousRun n t) := by
  simp only [continuousRun, h, hgo, Bool.false_eq_true, if_false]

/-- In every row of the outcome table the report ends the run exactly when the engine is halted after it
(40_instruction_cycle.md R109, R114). -/
theorem endsRun_of_outcomeRow (s t : State) (r : StepReport) (h : outcomeRow s t r) :
    r.endsRun = t.halted := by
  cases r with
  | executed x =>
    obtain ⟨-, -, -, hhalted, -⟩ := h
    exact hhalted.symm
  | haltHlt x =>
    obtain ⟨-, -, hhalted, -⟩ := h
    exact hhalted.symm
  | haltPcOverflow x =>
    obtain ⟨-, -, -, -, hhalted, -⟩ := h
    exact hhalted.symm
  | decodeError opcode address halted after =>
    obtain ⟨-, -, -, -, -, hhalted, -⟩ := h
    exact hhalted.symm
  | notRunnable =>
    obtain ⟨-, -, hhalted⟩ := h
    exact hhalted.symm

/-- A limit that covers the addresses left takes the continuous run to its last report, by induction on the limit:
a report that does not end the run leaves an address fewer. -/
theorem continuousRun_ends (n : Nat) (s : State) (h : s.Inv) (hn : 0 < n)
    (hlimit : s.halted = false → 16 ≤ s.pc.toNat + n) :
    ∃ t before r, continuousRun n s = .next (t, before ++ [r]) ∧
      runSteps (before.length + 1) s = .next t ∧ t.halted = true ∧ r.endsRun = true ∧
      ∀ r' ∈ before, r'.endsRun = false := by
  induction n generalizing s with
  | zero => omega
  | succ n ih =>
    obtain ⟨u, r, hcycle, hrow⟩ := cycle_outcomeRow s h
    have hstep := step_of_cycle hcycle
    have hends := endsRun_of_outcomeRow s u r hrow
    cases hu : u.halted with
    | true =>
      have hr : r.endsRun = true := hends.trans hu
      exact ⟨u, [], r, continuousRun_of_end n hcycle hr, runSteps_succ 0 s u hstep, hu, hr, nofun⟩
    | false =>
      have hr : r.endsRun = false := hends.trans hu
      have hrun : s.halted = false := by
        by_contra hne
        cases (step_of_not_runnable s (runnable_of_halted s (by simpa using hne))).symm.trans hstep
        exact hne hu
      obtain ⟨hnext, hlt⟩ := step_advances s u (runnable_of_inv s h hrun) hstep hu
      have hleft := hlimit hrun
      obtain ⟨t, before, last, hcont, hsteps, hhalted, hlast, hbefore⟩ :=
        ih u (step_inv s u h hstep) (by omega) (fun _ => by omega)
      refine ⟨t, r :: before, last, ?_, ?_, hhalted, hlast, List.forall_mem_cons.2 ⟨hr, hbefore⟩⟩
      · rw [continuousRun_of_go_on n hcycle hr, hcont]
        rfl
      · rw [List.length_cons, runSteps_succ _ s u hstep, hsteps]

/-- Settles O26. -/
theorem continuousRunEndsHalted : Obligations.ContinuousRunEndsHalted := by
  intro s h
  obtain ⟨t, before, r, hcont, hsteps, hhalted, hr, hbefore⟩ :=
    continuousRun_ends 16 s h (by omega) (fun _ => by omega)
  refine ⟨t, before ++ [r], r, hcont, ?_, hhalted, List.getLast?_concat, hr, ?_⟩
  · rw [List.length_append, List.length_singleton, hsteps]
  · rw [List.dropLast_concat]
    exact hbefore

end Sys2Proof.Machine
end

section
/-! PROOFS. LDA, ADD and SUB: what the execute phase of each writes, and what its whole step does. -/

namespace Sys2Proof.Machine

/-- The difference is the sum with the complement, modulo 256 (41_load_arithmetic.md R122). -/
theorem aluSub_toNat_complement (x y : Byte) :
    (aluSub x y).toNat = (x.toNat + (255 - y.toNat) + 1) % 256 := by
  rw [aluSub_asWritten, BitVec.toNat_ofNat, Nat.mod_mod]

/-- The end of an LDA, ADD, SUB or OUT cycle turns on the address alone: the execute phase leaves `halted` at 0, so
PC_OVERFLOW is raised exactly where `pc` was 15 (40_instruction_cycle.md R107). -/
theorem cycle_plainStepEnd (s : State) (i : Instr) (hr : runnable s = true)
    (hd : decode (fetchedByte s) = .ok i) (hname : i.mnemonic ≠ .HLT) :
    ∃ r, cycle exec s = .next (endOfStep (executed i (fetch s)), r) ∧
      plainStepEnd i.mnemonic i.operand s (endOfStep (executed i (fetch s))) r := by
  obtain ⟨hpc, hhalted⟩ := (runnable_iff s).1 hr
  have hnext := executed_fetch_pc_toNat i s hpc
  rcases executed_haltState_cases i (fetch s) with ⟨-, hh, hc⟩ | ⟨hhlt, -⟩
  · have hrun : (executed i (fetch s)).halted = false := hh.trans hhalted
    refine ⟨(finishStep i (executed i (fetch s))).2, cycle_of_decode_ok s i hr hd,
      by rw [endOfStep_pc, hnext], by rw [endOfStep_ir, executed_ir, fetch_ir],
      by rw [endOfStep_mem, executed_mem, fetch_mem], ?_⟩
    by_cases h15 : s.pc.toNat = 15
    · have hfinish := finishStep_of_overflow i _ ⟨hrun, by omega⟩
      rw [if_pos h15, show endOfStep (executed i (fetch s)) = _ from congrArg Prod.fst hfinish, hfinish]
      exact ⟨rfl, rfl, rfl⟩
    · have hfinish := finishStep_of_no_overflow i (executed i (fetch s)) (by omega)
      rw [if_neg h15, show endOfStep (executed i (fetch s)) = _ from congrArg Prod.fst hfinish, hfinish,
        if_neg hname, stepResult, hrun]
      exact ⟨rfl, hc, rfl⟩
  · exact absurd hhlt hname

/-- The whole step of a byte of LDA, ADD, SUB or OUT (R108). -/
theorem step_of_plain_byte (s : State) (i : Instr) (hpc : s.pc.toNat < 16) (hrun : s.halted = false)
    (hbyte : fetchedByte s = encode i) (hname : i.mnemonic ≠ .HLT) :
    ∃ r, step s = .next (endOfStep (executed i (fetch s))) ∧ stepReport s = .next r ∧
      plainStepEnd i.mnemonic i.operand s (endOfStep (executed i (fetch s))) r := by
  have hd : decode (fetchedByte s) = .ok i := by rw [hbyte, decode_encode]
  obtain ⟨r, hcycle, hend⟩ := cycle_plainStepEnd s i ((runnable_iff s).2 ⟨hpc, hrun⟩) hd hname
  exact ⟨r, step_of_cycle hcycle, stepReport_of_cycle hcycle, hend⟩

/-- Settles O1. -/
theorem execLdaLoadsTheNamedCell : Obligations.ExecLdaLoadsTheNamedCell := fun a s =>
  exec_eq_executed (.lda a) s

/-- Settles O2. -/
theorem execAddSumsModulo256 : Obligations.ExecAddSumsModulo256 := fun a s =>
  ⟨executed (.add a) s, exec_eq_executed (.add a) s, rfl, rfl, aluAdd_toNat s.acc (memRead s.mem a),
    rfl, rfl, rfl, rfl, rfl, rfl⟩

/-- Settles O3. -/
theorem execSubSubtractsModulo256 : Obligations.ExecSubSubtractsModulo256 := fun a s =>
  ⟨executed (.sub a) s, exec_eq_executed (.sub a) s, rfl, rfl, aluSub_toNat s.acc (memRead s.mem a),
    aluSub_toNat_complement s.acc (memRead s.mem a), rfl, rfl, rfl, rfl, rfl, rfl⟩

/-- Settles O11. -/
theorem stepLdaLoadsAndAdvances : Obligations.StepLdaLoadsAndAdvances := by
  intro s a hpc hrun hbyte
  obtain ⟨r, hstep, hreport, hend⟩ := step_of_plain_byte s (.lda a) hpc hrun hbyte nofun
  refine ⟨_, r, hstep, hreport, ?_, ?_, ?_, ?_, hend⟩
  · rw [endOfStep_mar]; rfl
  · rw [endOfStep_acc]; rfl
  · rw [endOfStep_b]; rfl
  · rw [endOfStep_out]; rfl

/-- Settles O12. -/
theorem stepAddSumsAndAdvances : Obligations.StepAddSumsAndAdvances := by
  intro s a hpc hrun hbyte
  obtain ⟨r, hstep, hreport, hend⟩ := step_of_plain_byte s (.add a) hpc hrun hbyte nofun
  refine ⟨_, r, hstep, hreport, ?_, ?_, ?_, ?_, hend⟩
  · rw [endOfStep_mar]; rfl
  · rw [endOfStep_b]; rfl
  · rw [endOfStep_acc]; exact aluAdd_toNat s.acc (memRead s.mem a)
  · rw [endOfStep_out]; rfl

/-- Settles O13. -/
theorem stepSubSubtractsAndAdvances : Obligations.StepSubSubtractsAndAdvances := by
  intro s a hpc hrun hbyte
  obtain ⟨r, hstep, hreport, hend⟩ := step_of_plain_byte s (.sub a) hpc hrun hbyte nofun
  refine ⟨_, r, hstep, hreport, ?_, ?_, ?_, ?_, ?_, hend⟩
  · rw [endOfStep_mar]; rfl
  · rw [endOfStep_b]; rfl
  · rw [endOfStep_acc]; exact aluSub_toNat s.acc (memRead s.mem a)
  · rw [endOfStep_acc]; exact aluSub_toNat_complement s.acc (memRead s.mem a)
  · rw [endOfStep_out]; rfl

end Sys2Proof.Machine
end

section
/-! PROOFS. A run against the exact arithmetic of its program: each step keeps `acc` and `out` equal modulo 256 to the
unreduced integers, so one reduction at the end gives the same (41_load_arithmetic.md R125). -/

namespace Sys2Proof.Machine

/-- `acc` and `out` are the exact accumulator and output reduced modulo 256. -/
def State.Reduces (s : State) (v : Int × Int) : Prop :=
  (s.acc.toNat : Int) = v.1 % 256 ∧ (s.out.toNat : Int) = v.2 % 256

/-- An execute phase keeps the reduction, each instruction against its exact effect (R120 to R122, R140). -/
theorem executed_reduces (i : Instr) (s : State) (v : Int × Int) (h : s.Reduces v) :
    (executed i s).Reduces (exactEffect s.mem v i) := by
  obtain ⟨hacc, hout⟩ := h
  cases i with
  | lda a =>
    have hbyte := (memRead s.mem a).isLt
    exact ⟨(Int.emod_eq_of_lt (by omega) (by omega)).symm, hout⟩
  | add a =>
    have hsum := aluAdd_toNat s.acc (memRead s.mem a)
    refine ⟨?_, hout⟩
    show ((aluAdd s.acc (memRead s.mem a)).toNat : Int) = (v.1 + (memRead s.mem a).toNat) % 256
    omega
  | sub a =>
    have hdifference := aluSub_toNat s.acc (memRead s.mem a)
    refine ⟨?_, hout⟩
    show ((aluSub s.acc (memRead s.mem a)).toNat : Int) = (v.1 - (memRead s.mem a).toNat) % 256
    omega
  | out x => exact ⟨hacc, hacc⟩
  | hlt x => exact ⟨hacc, hout⟩

theorem endOfStep_reduces (e : State) (v : Int × Int) (h : e.Reduces v) : (endOfStep e).Reduces v := by
  rwa [State.Reduces, endOfStep_acc, endOfStep_out]

/-- The step of an instruction has its exact effect, modulo 256. -/
theorem step_reduces (i : Instr) (s : State) (v : Int × Int) (h : s.Reduces v) :
    (endOfStep (executed i (fetch s))).Reduces (exactEffect s.mem v i) :=
  endOfStep_reduces _ _ (executed_reduces i (fetch s) v h)

/-! The equations of a program, one for each way its first byte can go. -/

section
variable {m : Memory} {a : Nat}

theorem programFrom_of_decode_error {r : DecodeRefusal} (n : Nat) (h : decode (m.readAt a) = .error r) :
    programFrom m (n + 1) a = [] := by
  simp only [programFrom, h]

theorem programFrom_of_hlt {i : Instr} (n : Nat) (h : decode (m.readAt a) = .ok i)
    (hname : i.mnemonic = .HLT) : programFrom m (n + 1) a = [i] := by
  simp only [programFrom, h, if_pos hname]

theorem programFrom_of_go_on {i : Instr} (n : Nat) (h : decode (m.readAt a) = .ok i)
    (hname : i.mnemonic ≠ .HLT) : programFrom m (n + 1) a = i :: programFrom m n (a + 1) := by
  simp only [programFrom, h, if_neg hname]

end

theorem executed_halted_of_hlt (i : Instr) (s : State) (h : i.mnemonic = .HLT) :
    (executed i s).halted = true := by
  rcases executed_haltState_cases i s with ⟨hne, -⟩ | ⟨-, hh, -⟩
  · exact absurd h hne
  · exact hh

/-- From a state that runs on while addresses are left, as many steps as there are addresses left end at the reduction
of the exact result of the program from `pc` on, by induction on the addresses left. -/
theorem runSteps_reduces (n : Nat) (s : State) (v : Int × Int) (hleft : s.pc.toNat + n = 16)
    (hrun : s.pc.toNat < 16 → s.halted = false) (h : s.Reduces v) :
    ∃ t, runSteps n s = .next t ∧
      t.Reduces ((programFrom s.mem n s.pc.toNat).foldl (exactEffect s.mem) v) := by
  induction n generalizing s v with
  | zero => exact ⟨s, rfl, h⟩
  | succ n ih =>
    have hpc : s.pc.toNat < 16 := by omega
    have hr := (runnable_iff s).2 ⟨hpc, hrun hpc⟩
    have hfetch := fetchedByte_eq_readAt s hpc
    cases hd : decode (fetchedByte s) with
    | error r =>
      have hstep := step_of_decode_error s r hr hd
      rw [hfetch] at hd
      rw [programFrom_of_decode_error n hd, runSteps_succ n s _ hstep]
      exact ⟨_, runSteps_of_halted n _ rfl, h⟩
    | ok i =>
      have hstep := step_of_decode_ok s i hr hd
      have hreduces := step_reduces i s v h
      rw [runSteps_succ n s _ hstep]
      by_cases hname : i.mnemonic = .HLT
      · have hhalted := executed_halted_of_hlt i (fetch s) hname
        rw [hfetch] at hd
        rw [programFrom_of_hlt n hd hname]
        exact ⟨_, runSteps_of_halted n _ (by rw [endOfStep_of_halted _ hhalted, hhalted]), hreduces⟩
      · obtain ⟨r, -, hnext, -, hmem, hend⟩ := cycle_plainStepEnd s i hr hd hname
        have hgoes : (endOfStep (executed i (fetch s))).pc.toNat < 16 →
            (endOfStep (executed i (fetch s))).halted = false := fun hlt => by
          rw [if_neg (by omega)] at hend
          exact hend.1
        rw [hfetch] at hd
        rw [programFrom_of_go_on n hd hname, List.foldl_cons]
        have hrest := ih _ _ (by omega) hgoes hreduces
        rwa [hnext, hmem] at hrest

/-- Settles O28: LOAD leaves zeros and sixteen addresses. -/
theorem programResultIsExactArithmeticModulo256 : Obligations.ProgramResultIsExactArithmeticModulo256 := by
  intro image _
  obtain ⟨t, hsteps, hacc, hout⟩ :=
    runSteps_reduces 16 (State.loaded image) (0, 0) rfl (fun _ => rfl) ⟨rfl, rfl⟩
  obtain ⟨u, hu, hhalted⟩ := runSteps_halts (State.loaded image) rfl
  cases hu.symm.trans hsteps
  exact ⟨t, hsteps, hhalted, hacc, hout⟩

end Sys2Proof.Machine
end

section
/-! PROOFS. What later steps depend on: two states that agree on `pc`, `acc`, `halted` and memory agree again after
every step, and a step that writes another element writes the same value in both. -/

namespace Sys2Proof.Machine

/-- Two states that agree, inside a step: the fetch has made `mar` and `ir` the same in both, and `cause` is the same
once the step has halted. -/
structure State.AgreeInStep (s t : State) : Prop where
  agree : s.agree t
  mar_eq : s.mar = t.mar
  ir_eq : s.ir = t.ir
  cause_eq : s.halted = true → s.cause = t.cause

theorem fetchedByte_of_agree (s t : State) (h : s.agree t) : fetchedByte s = fetchedByte t := by
  obtain ⟨hpc, -, -, hmem⟩ := h
  rw [fetchedByte, fetchedByte, pcAddress, pcAddress, hpc, hmem]

theorem runnable_of_agree (s t : State) (h : s.agree t) : runnable s = runnable t := by
  obtain ⟨hpc, -, hhalted, -⟩ := h
  rw [runnable, runnable, hpc, hhalted]

theorem fetch_agreeInStep (s t : State) (h : s.agree t) (hrun : s.halted = false) :
    (fetch s).AgreeInStep (fetch t) := by
  have hbyte := fetchedByte_of_agree s t h
  obtain ⟨hpc, hacc, hhalted, hmem⟩ := h
  exact {
    agree := ⟨by rw [fetch_pc, fetch_pc, hpc], hacc, hhalted, hmem⟩
    mar_eq := by rw [fetch_mar, fetch_mar, pcAddress, pcAddress, hpc]
    ir_eq := hbyte
    cause_eq := fun hh => by simp [hrun] at hh }

/-- A halt gives both the same cause, whatever theirs was (00_scope.md R10). -/
theorem halt_agreeInStep (c : HaltCause) (s t : State) (h : s.AgreeInStep t) :
    (s.halt c).AgreeInStep (t.halt c) := by
  obtain ⟨⟨hpc, hacc, -, hmem⟩, hmar, hir, -⟩ := h
  exact ⟨⟨hpc, hacc, rfl, hmem⟩, hmar, hir, fun _ => rfl⟩

/-- What an execute phase leaves in `acc` is a function of `acc` and memory: `b` is written before it is read
(10_state.md R26). -/
theorem executed_acc_congr (i : Instr) (s t : State) (hacc : s.acc = t.acc) (hmem : s.mem = t.mem) :
    (executed i s).acc = (executed i t).acc := by
  cases i with
  | lda a => exact congrArg (memRead · a) hmem
  | add a => exact congrArg₂ aluAdd hacc (congrArg (memRead · a) hmem)
  | sub a => exact congrArg₂ aluSub hacc (congrArg (memRead · a) hmem)
  | out x | hlt x => exact hacc

theorem executed_agreeInStep (i : Instr) (s t : State) (h : s.AgreeInStep t) :
    (executed i s).AgreeInStep (executed i t) := by
  obtain ⟨⟨hpc, hacc, hhalted, hmem⟩, hmar, hir, hcause⟩ := h
  have hmar' : (executed i s).mar = (executed i t).mar := by rw [executed_mar, executed_mar, hmar]
  have hacc' := executed_acc_congr i s t hacc hmem
  cases i with
  | lda a | add a | sub a | out x => exact ⟨⟨hpc, hacc', hhalted, hmem⟩, hmar', hir, hcause⟩
  | hlt x => exact halt_agreeInStep .hlt s t ⟨⟨hpc, hacc, hhalted, hmem⟩, hmar, hir, hcause⟩

/-- The end of the step tests only what agrees (40_instruction_cycle.md R107). -/
theorem endOfStep_agreeInStep (s t : State) (h : s.AgreeInStep t) :
    (endOfStep s).AgreeInStep (endOfStep t) := by
  obtain ⟨hpc, -, hhalted, -⟩ := h.agree
  have htest : pcOverflows s = pcOverflows t := by rw [pcOverflows, pcOverflows, hpc, hhalted]
  rw [endOfStep, endOfStep, htest]
  split
  · exact halt_agreeInStep .pcOverflow s t h
  · exact h

/-- ADD and SUB write `b` with a cell of memory (10_state.md R26). -/
theorem executed_b_congr (i : Instr) (s t : State) (hmem : s.mem = t.mem)
    (h : (opcodeOf i.mnemonic).toNat ∈ [1, 2]) : (executed i s).b = (executed i t).b := by
  cases i with
  | add a | sub a => exact congrArg (memRead · a) hmem
  | lda a | out x | hlt x => simp [Instr.mnemonic, opcodeOf] at h

/-- OUT writes `out` with `acc` (R27). -/
theorem executed_out_congr (i : Instr) (s t : State) (hacc : s.acc = t.acc)
    (h : (opcodeOf i.mnemonic).toNat = 14) : (executed i s).out = (executed i t).out := by
  cases i with
  | out x => exact hacc
  | lda a | add a | sub a | hlt x => simp [Instr.mnemonic, opcodeOf] at h

/-- One step of two runnable states that agree: what it writes is the same in both, by what the byte decodes to. -/
theorem step_agreeInStep (s t : State) (h : s.agree t) (hr : runnable s = true) :
    ∃ s' t', step s = .next s' ∧ step t = .next t' ∧ s'.AgreeInStep t' ∧
      ((fetchedByte s).toNat / 16 = 14 → s'.out = t'.out) ∧
      ((fetchedByte s).toNat / 16 ∈ [1, 2] → s'.b = t'.b) := by
  have hr' : runnable t = true := (runnable_of_agree s t h).symm.trans hr
  have hbyte := fetchedByte_of_agree s t h
  have hfetch := fetch_agreeInStep s t h ((runnable_iff s).1 hr).2
  cases hd : decode (fetchedByte s) with
  | error r =>
    refine ⟨_, _, step_of_decode_error s r hr hd, step_of_decode_error t r hr' (hbyte ▸ hd),
      halt_agreeInStep .decodeError _ _ hfetch, fun hout => ?_, fun hb => ?_⟩
    · exact absurd hout.symm (decode_error_opcode_ne _ r hd .OUT)
    · exact absurd (List.mem_cons_of_mem 0 hb) (decode_error_not_addressed _ r hd)
  | ok i =>
    obtain ⟨hop, -⟩ := decode_ok_nibbles _ i hd
    obtain ⟨-, hacc, -, hmem⟩ := hfetch.agree
    refine ⟨_, _, step_of_decode_ok s i hr hd, step_of_decode_ok t i hr' (hbyte ▸ hd),
      endOfStep_agreeInStep _ _ (executed_agreeInStep i _ _ hfetch), fun hout => ?_, fun hb => ?_⟩
    · rw [endOfStep_out, endOfStep_out, executed_out_congr i _ _ hacc (hop.trans hout)]
    · rw [endOfStep_b, endOfStep_b, executed_b_congr i _ _ hmem (hop ▸ hb)]

/-- A step that leaves the engine running leaves `cause` as it was (10_state.md R30). -/
theorem step_cause_of_running (s t : State) (hstep : step s = .next t) (hrun : t.halted = false) :
    t.cause = s.cause := by
  rcases step_cases s with ⟨-, heq⟩ | ⟨-, -, heq⟩ | ⟨-, i, -, heq⟩ <;> cases heq.symm.trans hstep
  · rfl
  · cases hrun
  · rcases endOfStep_cases (executed i (fetch s)) with ⟨-, -, hend⟩ | ⟨-, hend⟩ <;> rw [hend] at hrun ⊢
    · cases hrun
    · rcases executed_haltState_cases i (fetch s) with ⟨-, -, hc⟩ | ⟨-, hh, -⟩
      · exact hc
      · simp [hh] at hrun

/-- Two runs, from `s` to `s'` and from `t` to `t'`, that end in agreement, each of the other five elements being the
same at both ends or untouched in both runs. -/
structure RunsAgree (s t s' t' : State) : Prop where
  agree : s'.agree t'
  mar : sameOrKept State.mar s t s' t'
  ir : sameOrKept State.ir s t s' t'
  b : sameOrKept State.b s t s' t'
  out : sameOrKept State.out s t s' t'
  cause : sameOrKept State.cause s t s' t'

theorem RunsAgree.refl (s t : State) (h : s.agree t) : RunsAgree s t s t :=
  ⟨h, sameOrKept_refl _ s t, sameOrKept_refl _ s t, sameOrKept_refl _ s t, sameOrKept_refl _ s t,
    sameOrKept_refl _ s t⟩

theorem RunsAgree.trans {s t s' t' s'' t'' : State} (h : RunsAgree s t s' t')
    (h' : RunsAgree s' t' s'' t'') : RunsAgree s t s'' t'' :=
  ⟨h'.agree, sameOrKept_trans _ h.mar h'.mar, sameOrKept_trans _ h.ir h'.ir, sameOrKept_trans _ h.b h'.b,
    sameOrKept_trans _ h.out h'.out, sameOrKept_trans _ h.cause h'.cause⟩

/-- One step of two states that agree, runnable or not: an element that the byte or the halt does not make the same is
one that its instruction does not write, in either. -/
theorem step_runsAgree (s t : State) (h : s.agree t) :
    ∃ s' t', step s = .next s' ∧ step t = .next t' ∧ RunsAgree s t s' t' := by
  have hrunnable := runnable_of_agree s t h
  cases hr : runnable s with
  | false =>
    exact ⟨s, t, step_of_not_runnable s hr, step_of_not_runnable t (hrunnable ▸ hr), RunsAgree.refl s t h⟩
  | true =>
    have hbyte := fetchedByte_of_agree s t h
    obtain ⟨s', t', hs, ht, hagree, hout, hb⟩ := step_agreeInStep s t h hr
    obtain ⟨u, hu, -, hsb, hsout, -⟩ := eachRegisterIsWrittenByItsInstructionsOnly s hr
    obtain ⟨w, hw, -, htb, htout, -⟩ := eachRegisterIsWrittenByItsInstructionsOnly t (hrunnable ▸ hr)
    cases hu.symm.trans hs
    cases hw.symm.trans ht
    rw [← hbyte] at htb htout
    refine ⟨s', t', hs, ht, hagree.agree, Or.inl hagree.mar_eq, Or.inl hagree.ir_eq, ?_, ?_, ?_⟩
    · by_cases hop : (fetchedByte s).toNat / 16 ∈ [1, 2]
      · exact Or.inl (hb hop)
      · exact Or.inr ⟨hsb hop, htb hop⟩
    · by_cases hop : (fetchedByte s).toNat / 16 = 14
      · exact Or.inl (hout hop)
      · exact Or.inr ⟨hsout hop, htout hop⟩
    · obtain ⟨-, -, hhalted, -⟩ := hagree.agree
      cases hh : s'.halted with
      | true => exact Or.inl (hagree.cause_eq hh)
      | false =>
        exact Or.inr ⟨step_cause_of_running s s' hs hh, step_cause_of_running t t' ht (hhalted ▸ hh)⟩

theorem runSteps_runsAgree (k : Nat) (s t : State) (h : s.agree t) :
    ∃ s' t', runSteps k s = .next s' ∧ runSteps k t = .next t' ∧ RunsAgree s t s' t' := by
  induction k generalizing s t with
  | zero => exact ⟨s, t, rfl, rfl, RunsAgree.refl s t h⟩
  | succ k ih =>
    obtain ⟨u, w, hs, ht, hstep⟩ := step_runsAgree s t h
    obtain ⟨s', t', hs', ht', hrest⟩ := ih u w hstep.agree
    exact ⟨s', t', (runSteps_succ k s u hs).trans hs', (runSteps_succ k t w ht).trans ht', hstep.trans hrest⟩

/-- Settles O29: the runs by induction on the number of steps. -/
theorem laterStepsDependOnPcAccHaltedAndMemoryOnly :
    Obligations.LaterStepsDependOnPcAccHaltedAndMemoryOnly := by
  constructor
  · intro s t h hr
    obtain ⟨s', t', hs, ht, hagree, hout, hb⟩ := step_agreeInStep s t h hr
    exact ⟨s', t', hs, ht, hagree.agree, hagree.mar_eq, hagree.ir_eq, hout, hb, hagree.cause_eq⟩
  · intro k s t h
    obtain ⟨s', t', hs, ht, hruns⟩ := runSteps_runsAgree k s t h
    exact ⟨s', t', hs, ht, hruns.agree, hruns.mar, hruns.ir, hruns.b, hruns.out, hruns.cause⟩

end Sys2Proof.Machine
end

section
/-! PROOFS. OUT and HLT: what the execute phase of each writes, and what its whole step does. -/

namespace Sys2Proof.Machine

/-- An HLT cycle ends as its execute phase leaves it, at address 15 too: the engine is halted already, so the
end-of-step check does not raise PC_OVERFLOW (42_output_halt.md R141). -/
theorem cycle_of_hlt_byte (s : State) (x : Nibble) (hpc : s.pc.toNat < 16) (hrun : s.halted = false)
    (hbyte : fetchedByte s = encode (.hlt x)) :
    cycle exec s = .next
      ((fetch s).halt .hlt, .haltHlt ⟨.HLT, x, true, ((fetch s).halt .hlt).snapshot⟩) := by
  have hd : decode (fetchedByte s) = .ok (.hlt x) := by rw [hbyte, decode_encode]
  have hno : ¬((executed (.hlt x) (fetch s)).halted = false ∧ (executed (.hlt x) (fetch s)).pc.toNat = 16) :=
    fun h => nomatch h.1
  rw [cycle_of_decode_ok s (.hlt x) ((runnable_iff s).2 ⟨hpc, hrun⟩) hd, finishStep_of_no_overflow _ _ hno]
  rfl

/-- STEP of a halted engine reports NOT_RUNNABLE (60_exceptions.md R161). -/
theorem stepReport_of_halted (s : State) (h : s.halted = true) : stepReport s = .next .notRunnable :=
  stepReport_of_cycle (cycle_of_not_runnable s (runnable_of_halted s h))

/-- Settles O4. -/
theorem execOutCopiesTheAccumulator : Obligations.ExecOutCopiesTheAccumulator := fun x s =>
  exec_eq_executed (.out x) s

/-- Settles O5. -/
theorem execHltHaltsWithCauseHlt : Obligations.ExecHltHaltsWithCauseHlt := fun x s =>
  exec_eq_executed (.hlt x) s

/-- Settles O14: OUT leaves `mar` as the fetch latched it. -/
theorem stepOutCopiesAndAdvances : Obligations.StepOutCopiesAndAdvances := by
  intro s x hpc hrun hbyte
  obtain ⟨r, hstep, hreport, hend⟩ := step_of_plain_byte s (.out x) hpc hrun hbyte nofun
  refine ⟨_, r, hstep, hreport, ?_, ?_, ?_, ?_, hend⟩
  · rw [endOfStep_out]; rfl
  · rw [endOfStep_mar]; exact pcAddress_toNat s hpc
  · rw [endOfStep_acc]; rfl
  · rw [endOfStep_b]; rfl

/-- Settles O15: the halted state is the fetched one but for `halted` and `cause`, and no later STEP leaves it. -/
theorem stepHltHaltsAtEveryAddress : Obligations.StepHltHaltsAtEveryAddress := by
  intro s x hpc hrun hbyte
  have hcycle := cycle_of_hlt_byte s x hpc hrun hbyte
  have hhalted : ((fetch s).halt .hlt).halted = true := rfl
  exact ⟨(fetch s).halt .hlt, step_of_cycle hcycle, stepReport_of_cycle hcycle, hhalted, rfl,
    pc_increment_toNat s hpc, pcAddress_toNat s hpc, rfl, rfl, rfl, rfl, rfl,
    fun k => ⟨runSteps_of_halted k _ hhalted, stepReport_of_halted _ hhalted⟩⟩

end Sys2Proof.Machine
end

section
/-! PROOFS. Exceptions and the device: the decode error, the indicator lights, the halted engine, the halt causes. -/

namespace Sys2Proof.Machine

/-- Settles O42: each code is its row of the table, and `HaltCause.ofCode_code` reads it back. -/
theorem haltCauseCodesAreTheTables : Obligations.HaltCauseCodesAreTheTables :=
  ⟨rfl, rfl, rfl, rfl, HaltCause.ofCode_code⟩

/-- Light `i` is bit `i` of `out` as a whole number (60_exceptions.md R168). -/
theorem light_eq_testBit (s : State) (i : Fin 8) : s.light i = s.out.toNat.testBit i.val :=
  (BitVec.testBit_toNat s.out).symm

/-- OUT writes `out` with `acc` in its execute phase, and no other instruction writes it (42_output_halt.md R140). -/
theorem executed_out (i : Instr) (s : State) :
    (executed i s).out = if (opcodeOf i.mnemonic).toNat = 14 then s.acc else s.out := by
  cases i <;> rfl

/-- STEP writes `out` with `acc` if it runs OUT, and otherwise leaves it: a decode error has an opcode other than
OUT's. -/
theorem step_out (s : State) :
    ∃ t, step s = .next t ∧
      t.out = if runnable s = true ∧ (fetchedByte s).toNat / 16 = 14 then s.acc else s.out := by
  rcases step_cases s with ⟨hr, heq⟩ | ⟨-, ⟨r, hd⟩, heq⟩ | ⟨hr, i, hd, heq⟩
  · exact ⟨s, heq, by simp [hr]⟩
  · have hout : 14 ≠ (fetchedByte s).toNat / 16 := decode_error_opcode_ne _ r hd .OUT
    exact ⟨_, heq, (if_neg fun h => hout h.2.symm).symm⟩
  · have hop := (decode_ok_nibbles _ i hd).1
    refine ⟨_, heq, ?_⟩
    rw [endOfStep_out, executed_out, hop, fetch_acc, fetch_out]
    simp only [hr, true_and]

/-- Settles O20: the lights are the bits of `out`, and `step_out` says what a step leaves there. -/
theorem lightsShowTheOutputRegister : Obligations.LightsShowTheOutputRegister := by
  refine ⟨light_eq_testBit, fun s => ?_⟩
  obtain ⟨t, hstep, hout⟩ := step_out s
  refine ⟨t, hstep, fun i => ?_⟩
  rw [light_eq_testBit, light_eq_testBit, hout]
  split_ifs <;> rfl

/-- STEP of a halted engine gives the host NOT_RUNNABLE and changes nothing (60_exceptions.md R161). -/
theorem serve_step_of_halted (s : State) (h : s.halted = true) :
    serve .step (Engine.ready s) = .next (Engine.ready s, .stepped .notRunnable) := by
  simp [serve, hostStep, Engine.ready, cycle_of_not_runnable s (runnable_of_halted s h)]

/-- A session of operations that each leave the engine as it is leaves it as it is. -/
theorem sessionState_of_unchanged (ops : List HostOp) (e : Engine)
    (h : ∀ op ∈ ops, ∃ r, serve op e = .next (e, r)) : sessionState ops e = .next e := by
  induction ops with
  | nil => rfl
  | cons op ops ih =>
    obtain ⟨⟨r, hop⟩, hrest⟩ := List.forall_mem_cons.1 h
    rw [sessionState_cons op ops e e r hop, ih hrest]

/-- Settles O27: in the halted state STEP and SNAPSHOT each leave the engine as it is, so every session of them
does. -/
theorem haltedEngineWaitsForResetOrLoad : Obligations.HaltedEngineWaitsForResetOrLoad := by
  intro s h
  refine ⟨fun ops hops => sessionState_of_unchanged ops _ fun op hop => ?_,
    serve_snapshot _, serve_reset _, serve_load _⟩
  rcases hops op hop with rfl | rfl
  · exact ⟨_, serve_step_of_halted s h⟩
  · exact ⟨_, serve_snapshot _⟩

/-- The step of an instruction does not report DECODE_ERROR: no execute phase raises it (60_exceptions.md R160). -/
theorem finishStep_report_ne_decodeError (i : Instr) (e : State) (opcode address : Nibble) (halted : Bool)
    (after : Snapshot) : (finishStep i e).2 ≠ .decodeError opcode address halted after := by
  by_cases hover : e.halted = false ∧ e.pc.toNat = 16
  · rw [finishStep_of_overflow i e hover]
    exact nofun
  · rw [finishStep_of_no_overflow i e hover]
    split_ifs <;> exact nofun

/-- A report of DECODE_ERROR comes from a fetched byte that is no instruction. -/
theorem decode_error_of_stepReport (s : State) (opcode address : Nibble) (halted : Bool) (after : Snapshot)
    (h : stepReport s = .next (.decodeError opcode address halted after)) :
    ∃ r, decode (fetchedByte s) = .error r := by
  obtain ⟨p, hcycle, hreport⟩ := (onNext_eq_next _ _ _).1 h
  rcases cycle_cases exec s p hcycle with ⟨-, rfl⟩ | ⟨-, hd, -⟩ | ⟨-, i, e, -, -, rfl⟩
  · cases hreport
  · exact hd
  · exact absurd hreport (finishStep_report_ne_decodeError i e opcode address halted after)

/-- Settles O16: the decode error halts the fetched state, which no later STEP leaves; and its report comes from a
reserved byte alone. -/
theorem stepDecodeErrorCommitsTheFetchAndHalts : Obligations.StepDecodeErrorCommitsTheFetchAndHalts := by
  constructor
  · intro s hpc hrun hlow hhigh
    obtain ⟨r, hd⟩ := (decode_error_iff (fetchedByte s)).2 ⟨hlow, hhigh⟩
    have hcycle := cycle_of_decode_error s r ((runnable_iff s).2 ⟨hpc, hrun⟩) hd
    have hmar := pcAddress_toNat s hpc
    have hhalted : ((fetch s).halt .decodeError).halted = true := rfl
    exact ⟨(fetch s).halt .decodeError, opcodeField (fetchedByte s), pcAddress s, step_of_cycle hcycle, hmar,
      pc_increment_toNat s hpc, rfl, rfl, rfl, rfl, rfl, hhalted, rfl, stepReport_of_cycle hcycle,
      opcodeField_toNat (fetchedByte s), hmar, rfl, fun k => runSteps_of_halted k _ hhalted,
      stepReport_of_halted _ hhalted, serve_reset _, serve_load _⟩
  · intro s hbyte opcode address halted after hreport
    have hreserved := (decode_error_iff (fetchedByte s)).1
      (decode_error_of_stepReport s opcode address halted after hreport)
    omega

end Sys2Proof.Machine
end

section
/-! PROOFS. The host's sessions: what LOAD refuses, what a LOAD forgets, and what makes the engine defined. -/

namespace Sys2Proof.Machine

/-- Settles O40: the check that LOAD makes is R193's definition of an image. -/
theorem loadOfWhatIsNoImageIsRefused : Obligations.LoadOfWhatIsNoImageIsRefused := by
  intro image e h
  have hno : ¬imageOk image = true := mt (imageOk_iff image).1 h
  simp only [serve, hostLoad, if_neg hno]

/-- A session that is served goes on with the operations after it. -/
theorem sessionState_append (ops more : List HostOp) (e e' : Engine) (h : sessionState ops e = .next e') :
    sessionState (ops ++ more) e = sessionState more e' := by
  induction ops generalizing e with
  | nil =>
    cases h
    rfl
  | cons op ops ih =>
    obtain ⟨f, r, hop, hrest⟩ := sessionState_cons_next op ops e e' h
    rw [List.cons_append, sessionState_cons op (ops ++ more) e f r hop, ih f hrest]

/-- LOAD alone leads every engine to the loaded state (70_reset_and_hazards.md R192). -/
theorem sessionState_load (image : List Nat) (e : Engine) (h : imageOk image = true) :
    sessionState [.load image] e = .next (Engine.ready (State.loaded image)) := by
  rw [sessionState_cons _ _ e _ _ (serve_load e image h), sessionState_nil]

/-- Settles O44: the last LOAD leads to the loaded state from whatever engine the history before it left, and from
the one that RESET gives. -/
theorem loadedStateForgetsTheHistory : Obligations.LoadedStateForgetsTheHistory := by
  intro ops e e' image himage h
  constructor
  · rw [sessionState_append ops _ e e' h, sessionState_cons _ _ e' _ _ (serve_reset e'),
      sessionState_load image _ himage]
  · rw [sessionState_append ops _ e e' h, sessionState_load image e' himage]

/-- The operations that give every element a value: RESET and LOAD (70_reset_and_hazards.md R196). -/
abbrev HostOp.Defines (op : HostOp) : Prop := op = .reset ∨ ∃ image, op = .load image

/-- STEP and SNAPSHOT do not define an engine: the one is not served before it is defined, the other changes
nothing. -/
theorem serve_defined_iff (op : HostOp) (e f : Engine) (r : Response) (h : serve op e = .next (f, r)) :
    f.defined = true ↔ e.defined = true ∨ op.Defines := by
  rcases serve_cases op e f r h with
    ⟨rfl, rfl⟩ | ⟨image, rfl, -, rfl⟩ | ⟨-, hdefined, t, -, rfl⟩ | ⟨rfl, rfl⟩
  · exact iff_of_true rfl (.inr (.inl rfl))
  · exact iff_of_true rfl (.inr (.inr ⟨image, rfl⟩))
  · exact iff_of_true rfl (.inl hdefined)
  · simp

/-- A session leaves the engine defined if it was so before or if one of its operations defines it. -/
theorem sessionState_defined_iff (ops : List HostOp) (e e' : Engine) (h : sessionState ops e = .next e') :
    e'.defined = true ↔ e.defined = true ∨ ∃ op ∈ ops, op.Defines := by
  induction ops generalizing e with
  | nil =>
    cases h
    simp
  | cons op ops ih =>
    obtain ⟨f, r, hop, hrest⟩ := sessionState_cons_next op ops e e' h
    rw [ih f hrest, serve_defined_iff op e f r hop, List.exists_mem_cons_iff, or_assoc]

/-- Until it is defined, the engine is as it was at power-on. -/
def Engine.PowerOnUntilDefined (e : Engine) : Prop := e.defined = false → e = Engine.powerOn

theorem serve_powerOnUntilDefined (op : HostOp) (e f : Engine) (r : Response) (h : e.PowerOnUntilDefined)
    (hserve : serve op e = .next (f, r)) : f.PowerOnUntilDefined := by
  rcases serve_cases op e f r hserve with
    ⟨-, rfl⟩ | ⟨image, -, -, rfl⟩ | ⟨-, -, t, -, rfl⟩ | ⟨-, rfl⟩
  · exact nofun
  · exact nofun
  · exact nofun
  · exact h

/-- Settles O45: the engine at power-on is not defined, so only an operation of the session can have defined it. -/
theorem powerOnEngineStepsOnlyAfterResetOrLoad : Obligations.PowerOnEngineStepsOnlyAfterResetOrLoad := by
  refine ⟨rfl, fun ops e h => ⟨?_, ?_⟩⟩
  · have hundefined : ¬Engine.powerOn.defined = true := nofun
    rw [sessionState_defined_iff ops Engine.powerOn e h, or_iff_right hundefined]
  · exact sessionState_keeps Engine.PowerOnUntilDefined serve_powerOnUntilDefined ops Engine.powerOn e
      (fun _ => rfl) h

end Sys2Proof.Machine
end
